-- ==== Sys2Proof/Word.lean ====
section
/-! DEFINITION. The word and byte types of the core (00_scope.md R4, R6): a word is an unsigned
16-bit value, an item of the output or input stream is 8 bits. -/

namespace Sys2Proof

/-- A heap cell, register, stack entry, instruction word or program counter (R4 `WORD_BITS`,
`PC_BITS`; the 16-bit program counter is the spec's decision D3, log 13). -/
abbrev Word := BitVec 16

/-- An item of `out`, `inbuf` or `hist` (R4 `OUT_ITEM_BITS`, `IN_ITEM_BITS`; log 22). -/
abbrev Byte := BitVec 8

end Sys2Proof
end

