-- ==== Sys2Proof/Config.lean ====
section
/-! DEFINITION. The parameters of the core, each under the name 00_scope.md R4 gives it. None is a
free value: R4 gives every one a value, the source's or the spec's own decision. `CYCLE_BITS` and
`STACK_DEPTH` are unbounded (logs 14, 15) and so have no constant. -/

namespace Sys2Proof.Config

/-- `HEAP_CELLS`: number of 16-bit heap cells. -/
@[simp] abbrev heapCells : Nat := 32768

/-- Two bytes hold one heap cell (log 1). -/
@[simp] abbrev heapBytes : Nat := 65536

/-- `NREG`: number of general registers. -/
@[simp] abbrev nreg : Nat := 8

/-- `REG_BASE`: the operand value naming register 0. -/
@[simp] abbrev regBase : Nat := 32768

/-- `REG_TOP`: the operand value naming register 7. -/
@[simp] abbrev regTop : Nat := 32775

/-- `ARITH_MOD`: modulus of ADD and MULT; the mask of NOT is one less. -/
@[simp] abbrev arithMod : Nat := 32768

/-- `NOPCODE`: opcode values are 0 to 21. -/
@[simp] abbrev nopcode : Nat := 22

/-- `MAX_LEN`: longest instruction in words, and size of the fetch window. -/
@[simp] abbrev maxLen : Nat := 4

/-- `MAX_ALIAS_HOPS`: register dereferences allowed in one operand resolution (decision D6: exact,
20_memory.md R33 (c); log 16). -/
@[simp] abbrev maxAliasHops : Nat := 8

/-- `JUMP_TARGET_EAGER`: whether JT and JF resolve operand b even when the jump is not taken
(decision D9, default false; 42_jump.md R86, R87; log 8). -/
def jumpTargetEager : Bool := false

/-- `INBUF_PRELOAD`: the bytes in `inbuf` at reset when the host names none (10_state.md R26). -/
def inbufPreload : List Byte := []

end Sys2Proof.Config
end

