-- ==== Sys2Proof/Syntax.lean ====
section
/-! DEFINITION. The instructions (30_encoding.md R52), each with its operand words as fetched,
unresolved and unchecked (R54), and the names of the 22 opcodes. -/

namespace Sys2Proof

/-- The 22 instructions, in the order of the opcode table; an operand is its 16-bit operand word.
IN is `inp` because `in` is a word of Lean. -/
inductive Instr where
  | halt
  | set (a b : Word)
  | push (a : Word)
  | pop (a : Word)
  | eq (a b c : Word)
  | gt (a b c : Word)
  | jmp (a : Word)
  | jt (a b : Word)
  | jf (a b : Word)
  | add (a b c : Word)
  | mult (a b c : Word)
  | mod (a b c : Word)
  | and (a b c : Word)
  | or (a b c : Word)
  | not (a b : Word)
  | rmem (a b : Word)
  | wmem (a b : Word)
  | call (a : Word)
  | ret
  | out (a : Word)
  | inp (a : Word)
  | noop
deriving DecidableEq, Repr

/-- The 22 variants of R52 without their operands: what the opcode word alone selects. -/
inductive Mnemonic where
  | halt | set | push | pop | eq | gt | jmp | jt | jf | add | mult | mod | and | or | not
  | rmem | wmem | call | ret | out | inp | noop
deriving DecidableEq, Repr

/-- The decoder's errors (R54). `notImplemented` has no producer, since all 22 opcode values are
wired (R56 (b), 90_conflicts.md C5; log 31). -/
inductive DecodeError where
  | empty
  | parameterMissing (opcode : Word)
  | notImplemented (opcode : Word)
  | invalid (opcode : Word)
deriving DecidableEq, Repr

/-- What a 16-bit operand word denotes (20_memory.md R31, 30_encoding.md R51): a literal, one of
the eight registers, or nothing. -/
inductive Operand where
  | literal
  | register (i : Fin 8)
  | invalid
deriving DecidableEq, Repr

namespace Instr

def mnemonic : Instr → Mnemonic
  | .halt => .halt
  | .set _ _ => .set
  | .push _ => .push
  | .pop _ => .pop
  | .eq _ _ _ => .eq
  | .gt _ _ _ => .gt
  | .jmp _ => .jmp
  | .jt _ _ => .jt
  | .jf _ _ => .jf
  | .add _ _ _ => .add
  | .mult _ _ _ => .mult
  | .mod _ _ _ => .mod
  | .and _ _ _ => .and
  | .or _ _ _ => .or
  | .not _ _ => .not
  | .rmem _ _ => .rmem
  | .wmem _ _ => .wmem
  | .call _ => .call
  | .ret => .ret
  | .out _ => .out
  | .inp _ => .inp
  | .noop => .noop

/-- The operand words a, b, c, as many as the arity (R50). -/
def operands : Instr → List Word
  | .halt => []
  | .set a b => [a, b]
  | .push a => [a]
  | .pop a => [a]
  | .eq a b c => [a, b, c]
  | .gt a b c => [a, b, c]
  | .jmp a => [a]
  | .jt a b => [a, b]
  | .jf a b => [a, b]
  | .add a b c => [a, b, c]
  | .mult a b c => [a, b, c]
  | .mod a b c => [a, b, c]
  | .and a b c => [a, b, c]
  | .or a b c => [a, b, c]
  | .not a b => [a, b]
  | .rmem a b => [a, b]
  | .wmem a b => [a, b]
  | .call a => [a]
  | .ret => []
  | .out a => [a]
  | .inp a => [a]
  | .noop => []

/-- The operand word in the destination role, where the instruction has one (R51). -/
def dest? : Instr → Option Word
  | .set a _ => some a
  | .pop a => some a
  | .eq a _ _ => some a
  | .gt a _ _ => some a
  | .add a _ _ => some a
  | .mult a _ _ => some a
  | .mod a _ _ => some a
  | .and a _ _ => some a
  | .or a _ _ => some a
  | .not a _ => some a
  | .rmem a _ => some a
  | .inp a => some a
  | .halt => none
  | .push _ => none
  | .jmp _ => none
  | .jt _ _ => none
  | .jf _ _ => none
  | .wmem _ _ => none
  | .call _ => none
  | .ret => none
  | .out _ => none
  | .noop => none

/-- The operand words in the source role, in the order a, b, c (R51). -/
def sources (i : Instr) : List Word :=
  if i.dest?.isSome then i.operands.tail else i.operands

end Instr

/-- The operand word that names register i (R11). -/
def regWord (i : Fin 8) : Word := BitVec.ofNat 16 (Config.regBase + i.val)

end Sys2Proof
end

