-- ==== Sys2Proof/WellFormed.lean ====
section
/-! DEFINITION. Static legality of an instruction's operand words by their roles (30_encoding.md
R51). The DECODER does not check it (R54, R56 (e)): an instruction that is not well-formed still
decodes and encodes, and traps when it uses the bad word (log 30). -/

namespace Sys2Proof

/-- A destination word must be one of 32768 to 32775 (R51; 20_memory.md R34). -/
def destOk (a : Word) : Bool := Config.regBase ≤ a.toNat && a.toNat ≤ Config.regTop

/-- A source word must be at most 32775 (R51; 20_memory.md R32). -/
def sourceOk (a : Word) : Bool := a.toNat ≤ Config.regTop

/-- No operand word is an addressing violation by itself. -/
def Instr.wellFormed (i : Instr) : Bool :=
  i.dest?.all destOk && i.sources.all sourceOk

end Sys2Proof
end

