-- ==== Sys2Proof/Decode.lean ====
section
/-! DEFINITION. The opcode map (30_encoding.md R52), the decoder on a window of words (R54, R55)
and the encoder written from the same map. The decoder is total on windows of every length. -/

namespace Sys2Proof

namespace Mnemonic

/-- The opcode number of each instruction (R52; 0, 9, 19 and 21 are the source's, the other
eighteen are the spec's decision D1, log 11). -/
def opcode : Mnemonic → Word
  | .halt => 0
  | .set => 1
  | .push => 2
  | .pop => 3
  | .eq => 4
  | .gt => 5
  | .jmp => 6
  | .jt => 7
  | .jf => 8
  | .add => 9
  | .mult => 10
  | .mod => 11
  | .and => 12
  | .or => 13
  | .not => 14
  | .rmem => 15
  | .wmem => 16
  | .call => 17
  | .ret => 18
  | .out => 19
  | .inp => 20
  | .noop => 21

/-- The row of an opcode word; none for 22 to 65535 (R50: all 16 bits are the opcode). -/
def ofOpcode (op : Word) : Option Mnemonic :=
  match op.toNat with
  | 0 => some .halt
  | 1 => some .set
  | 2 => some .push
  | 3 => some .pop
  | 4 => some .eq
  | 5 => some .gt
  | 6 => some .jmp
  | 7 => some .jt
  | 8 => some .jf
  | 9 => some .add
  | 10 => some .mult
  | 11 => some .mod
  | 12 => some .and
  | 13 => some .or
  | 14 => some .not
  | 15 => some .rmem
  | 16 => some .wmem
  | 17 => some .call
  | 18 => some .ret
  | 19 => some .out
  | 20 => some .inp
  | 21 => some .noop
  | _ => none

/-- Number of operand words (R52). -/
def arity : Mnemonic → Nat
  | .halt => 0
  | .set => 2
  | .push => 1
  | .pop => 1
  | .eq => 3
  | .gt => 3
  | .jmp => 1
  | .jt => 2
  | .jf => 2
  | .add => 3
  | .mult => 3
  | .mod => 3
  | .and => 3
  | .or => 3
  | .not => 2
  | .rmem => 2
  | .wmem => 2
  | .call => 1
  | .ret => 0
  | .out => 1
  | .inp => 1
  | .noop => 0

/-- Encoded length in words, 1 + arity (R50, R52; decision D2, log 12). -/
def len (m : Mnemonic) : Nat := 1 + m.arity

end Mnemonic

/-- The instruction of a row with the operand words that follow the opcode word; none when the
window is too short. Words beyond the arity are ignored (R55). -/
def Instr.build : Mnemonic → List Word → Option Instr
  | .halt, _ => some .halt
  | .set, a :: b :: _ => some (.set a b)
  | .push, a :: _ => some (.push a)
  | .pop, a :: _ => some (.pop a)
  | .eq, a :: b :: c :: _ => some (.eq a b c)
  | .gt, a :: b :: c :: _ => some (.gt a b c)
  | .jmp, a :: _ => some (.jmp a)
  | .jt, a :: b :: _ => some (.jt a b)
  | .jf, a :: b :: _ => some (.jf a b)
  | .add, a :: b :: c :: _ => some (.add a b c)
  | .mult, a :: b :: c :: _ => some (.mult a b c)
  | .mod, a :: b :: c :: _ => some (.mod a b c)
  | .and, a :: b :: c :: _ => some (.and a b c)
  | .or, a :: b :: c :: _ => some (.or a b c)
  | .not, a :: b :: _ => some (.not a b)
  | .rmem, a :: b :: _ => some (.rmem a b)
  | .wmem, a :: b :: _ => some (.wmem a b)
  | .call, a :: _ => some (.call a)
  | .ret, _ => some .ret
  | .out, a :: _ => some (.out a)
  | .inp, a :: _ => some (.inp a)
  | .noop, _ => some .noop
  | .set, _ => none
  | .push, _ => none
  | .pop, _ => none
  | .eq, _ => none
  | .gt, _ => none
  | .jmp, _ => none
  | .jt, _ => none
  | .jf, _ => none
  | .add, _ => none
  | .mult, _ => none
  | .mod, _ => none
  | .and, _ => none
  | .or, _ => none
  | .not, _ => none
  | .rmem, _ => none
  | .wmem, _ => none
  | .call, _ => none
  | .out, _ => none
  | .inp, _ => none

/-- `Decode(w)` of R55: empty, then opcode range, then operand presence. -/
def decode : List Word → Except DecodeError Instr
  | [] => .error .empty
  | op :: rest =>
    match Mnemonic.ofOpcode op with
    | none => .error (.invalid op)
    | some m =>
      match Instr.build m rest with
      | none => .error (.parameterMissing op)
      | some i => .ok i

/-- The words of an instruction: the opcode word, then the operand words (R50). -/
def encode (i : Instr) : List Word := i.mnemonic.opcode :: i.operands

/-- The longest instruction's words of a table row whose bits are w: word k is bits 16k+15 to 16k,
the first word lowest (the heap is addressed by word, 20_memory.md R39); the bits above nbits
are 0. -/
def tableWords (nbits w : Nat) : List Word :=
  (List.range Config.maxLen).map fun k => BitVec.ofNat 16 (w % 2 ^ nbits / 65536 ^ k)

/-- What the decoder reads from an instruction whose bits are w. -/
def decodeTableWord (nbits w : Nat) : Option Instr :=
  match decode (tableWords nbits w) with
  | .ok i => some i
  | .error _ => none

end Sys2Proof
end

