-- ==== Sys2Proof/Machine/State.lean ====
section
/-! DEFINITION. The state of the core (10_state.md R10), the host's moves as plain data
(60_exceptions.md R135, R136), the reasons a step can stop, and the state after reset (R26, R150).
Every field is plain data. -/

namespace Sys2Proof.Machine

/-- The heap (10_state.md R16) as (byte address, byte) pairs: cell k is byte 2k (bits 7:0) and byte
2k+1 (bits 15:8), the layout of the image file (20_memory.md R39; log 1). Canonical form:
`Memory.wf` of Ops.lean; an unlisted byte reads as 0. -/
abbrev Memory := List Host.Cell

/-- The eight general registers (R11), 16 bits each. -/
abbrev RegFile := Vector Word 8

/-- The fatal traps of 60_exceptions.md R120, in the order of its `code` column. -/
inductive TrapCause where
  /-- The fetch window is empty, that is pc is 32768 or more. -/
  | decodeEmpty
  /-- The window, cut at heap index 32767, is shorter than the instruction. -/
  | decodeParameterMissing
  /-- Never raised (R56; log 31). -/
  | decodeNotImplemented
  /-- The opcode word is 22 to 65535. -/
  | decodeInvalid
  /-- A word outside the legal range met as operand, content or written value, or a destination
  that is no register. -/
  | addressingViolation
  /-- A ninth dereference would be needed in one resolution. -/
  | registerCycle
  /-- POP or RET on an empty stack. -/
  | stackUnderflow
  /-- MOD with a resolved divisor of 0. -/
  | arithmeticError
deriving DecidableEq, Repr

/-- The trap record (60_exceptions.md R127; its shape is decision D10, log 21). -/
structure TrapRecord where
  cause    : TrapCause
  pc       : Word
  opcode   : Option Word
  operands : List Word
  info     : Option Word
deriving DecidableEq, Repr

/-- What a snapshot holds: every component but `trap` and `step_once` (60_exceptions.md R140). -/
structure Snapshot where
  paused : Bool
  halted : Bool
  cycle  : Nat
  pc     : Word
  heap   : Memory
  x      : RegFile
  stack  : List Word
  hist   : List Byte
  inbuf  : List Byte
  out    : List Byte
deriving DecidableEq, Repr

/-- The host events (60_exceptions.md R136). -/
inductive HostEvent where
  /-- reset with an image and `INBUF_PRELOAD` (70_reset_and_hazards.md R150) -/
  | reset (image : List Word) (preload : List Byte)
  /-- supply-input (R137) -/
  | supplyInput (bytes : List Byte)
  /-- toggle-pause (R138) -/
  | togglePause
  /-- step-once (R138) -/
  | stepOnce
  /-- set-register; an index outside 0 to 7 is a host error (R139) -/
  | setRegister (i : Nat) (v : Word)
  /-- load-state (R140) -/
  | loadState (snap : Snapshot)
  /-- save-state (R141) -/
  | saveState
  /-- observe, the update the controller receives (R141) -/
  | observe
  /-- write-history (R141) -/
  | writeHistory
deriving DecidableEq, Repr

/-- One move of the host at a cycle boundary: an event, or letting the core have its turn. -/
inductive HostMove where
  | event (e : HostEvent)
  | cycle
deriving DecidableEq, Repr

/-- The tuple of R10, and the model's own `agenda`. -/
structure State where
  heap     : Memory
  x        : RegFile
  /-- top at the end (R15) -/
  stack    : List Word
  pc       : Word
  cycle    : Nat
  halted   : Bool
  paused   : Bool
  stepOnce : Bool
  out      : List Byte
  /-- front at index 0 (R18) -/
  inbuf    : List Byte
  hist     : List Byte
  trap     : Option TrapRecord
  /-- The MODEL's own field: the host's next moves, first move first (60_exceptions.md R135;
  log 3). With an empty agenda every step is the core's. -/
  agenda   : List HostMove
deriving DecidableEq, Repr

/-- Reasons a step ends in a fault: none. Every error of this core is a fatal trap, which is a NEXT
state with `trap` set (60_exceptions.md R126), and every address is either heap, register or a
trap. So this type has no constructor and no step answers `Outcome.fault` (safe; log 28). -/
inductive Fault where
deriving DecidableEq, Repr

/-- Reasons the model gives no meaning to a move. -/
inductive Refusal where
  /-- Raised by an arm of `exec` whose instruction has no meaning yet; none is left. Safe. -/
  | notModelled (mnemonic : String)
  /-- Raised by the host event set-register with an index outside 0 to 7: "a host error with no
  defined effect; a model refuses it" (60_exceptions.md R139, U10; log 5). Safe. -/
  | setRegisterIndex (i : Nat)
  /-- Raised by the host event reset with an image of more than 32768 words, which has no meaning
  (70_reset_and_hazards.md R151, D24; log 5). Safe. -/
  | imageTooLong (words : Nat)
deriving DecidableEq, Repr

/-- What a step or a meaning answers. -/
abbrev Answer := Host.Outcome State Fault Refusal

/-- The state after reset with the empty image (10_state.md R26, 70_reset_and_hazards.md R150;
log 18). The empty agenda is the model's choice (log 3). -/
def State.reset : State where
  heap     := []
  x        := Vector.replicate 8 0
  stack    := []
  pc       := 0
  cycle    := 0
  halted   := false
  paused   := false
  stepOnce := false
  out      := []
  inbuf    := Config.inbufPreload
  hist     := []
  trap     := none
  agenda   := []

end Sys2Proof.Machine
end

