-- ==== Sys2Proof/Machine/Ops.lean ====
section
/-! DEFINITION. The named operations over the heap, the registers, the stack and the streams, the
fetch window, taking a trap, completing a cycle, and reset (which is the only way out of a trap). -/

namespace Sys2Proof.Machine

namespace Memory

/-- What an unlisted byte reads as: the heap is "zero-initialized" (10_state.md R16). -/
abbrev unlisted : Byte := 0

/-- Canonical form: addresses strictly rising, inside the heap, and no entry equal to what an
unlisted byte reads as. -/
abbrev wf (m : Memory) : Prop :=
  m.Pairwise (fun p q => p.1 < q.1) ∧ ∀ p ∈ m, p.1 < Config.heapBytes ∧ p.2 ≠ unlisted

def readByte : Memory → Nat → Byte
  | [], _ => unlisted
  | (k, v) :: m, a => if k = a then v else readByte m a

/-- Write one byte, keeping the canonical form: writing the unlisted value removes the entry. -/
def writeByte : Memory → Nat → Byte → Memory
  | [], a, v => if v = unlisted then [] else [(a, v)]
  | (k, w) :: m, a, v =>
    if a < k then
      if v = unlisted then (k, w) :: m else (a, v) :: (k, w) :: m
    else if a = k then
      if v = unlisted then m else (a, v) :: m
    else (k, w) :: writeByte m a v

/-- Heap cell k: bits 15:8 at byte 2k+1, bits 7:0 at byte 2k (log 1). -/
def readWord (m : Memory) (k : Nat) : Word := readByte m (2 * k + 1) ++ readByte m (2 * k)

def writeWord (m : Memory) (k : Nat) (v : Word) : Memory :=
  writeByte (writeByte m (2 * k) (v.extractLsb' 0 8)) (2 * k + 1) (v.extractLsb' 8 8)

/-- Words at consecutive cells from k upward (70_reset_and_hazards.md R151: the image "loaded
verbatim into heap addresses 0..N−1 in file order"). -/
def loadWords (m : Memory) : Nat → List Word → Memory
  | _, [] => m
  | k, v :: vs => loadWords (writeWord m k v) (k + 1) vs

/-- The canonical form of any list of cells: the first entry of an address counts, and an entry
outside the heap is no part of it (log 6). -/
def canonical : List Host.Cell → Memory
  | [] => []
  | (a, v) :: cells =>
    if a < Config.heapBytes then writeByte (canonical cells) a v else canonical cells

end Memory

/-- `MemRead(k, 1)` (20_memory.md R30). -/
def memRead (s : State) (k : Nat) : Word := s.heap.readWord k

namespace State

/-- `MemWrite(k, 1, v)` (20_memory.md R30): "No side effects beyond the mutated cell". -/
def memWrite (s : State) (k : Nat) (v : Word) : State := { s with heap := s.heap.writeWord k v }

/-- `x[i]`, the stored 16 bits (10_state.md R11). -/
def reg (s : State) (i : Fin 8) : Word := s.x[i]

/-- `x[i] <- v`, stored as given (10_state.md R11). -/
def setReg (s : State) (i : Fin 8) (v : Word) : State := { s with x := s.x.set i v }

/-- `pc <- t`. -/
def jump (s : State) (t : Word) : State := { s with pc := t }

/-- `pc <- pc + len`, in 16 bits (10_state.md R13, R14; log 13). -/
def advance (s : State) (len : Nat) : State := { s with pc := s.pc + BitVec.ofNat 16 len }

/-- `Push(v)`: the top is at the end (10_state.md R15). -/
def push (s : State) (v : Word) : State := { s with stack := s.stack ++ [v] }

/-- The top word of the stack; none when `StackEmpty()`. -/
def top? (s : State) : Option Word := s.stack.getLast?

/-- The removal part of `Pop()`. -/
def dropTop (s : State) : State := { s with stack := s.stack.dropLast }

/-- Append one item to `out` (10_state.md R17). -/
def emit (s : State) (c : Byte) : State := { s with out := s.out ++ [c] }

/-- Remove the oldest item of `inbuf` and record it in `hist` (10_state.md R18, R19; log 22). -/
def consume (s : State) (c : Byte) : State :=
  { s with inbuf := s.inbuf.tail, hist := s.hist ++ [c] }

/-- `halted <- 1` (10_state.md R20). -/
def setHalted (s : State) : State := { s with halted := true }

/-- The end of a completed cycle (60_exceptions.md R131): `cycle` counts, `step_once` clears. -/
def count (s : State) : State := { s with cycle := s.cycle + 1, stepOnce := false }

end State

/-- `Fetch(pc)` (30_encoding.md R55): up to four cells, clamped at the end of the heap; it never
wraps and never reads the register window. -/
def fetch (s : State) : List Word :=
  if Config.heapCells ≤ s.pc.toNat then []
  else (List.range (min Config.maxLen (Config.heapCells - s.pc.toNat))).map
    fun k => memRead s (s.pc.toNat + k)

/-- How an instruction's pseudocode can end without completing (00_scope.md R7). -/
inductive Stop where
  /-- `raise cause(info)` -/
  | raise (cause : TrapCause) (info : Option Word)
  /-- `stall` -/
  | stall
deriving DecidableEq, Repr

/-- Taking a trap (60_exceptions.md R126, R127): the record is written and nothing else changes, so
pc stays at the failing instruction and `cycle` is not counted (logs 9, 10, 21). There is no
return from it (R128); only `resetWith` leaves the trapped state. -/
def takeTrap (cause : TrapCause) (info : Option Word) (operands : List Word) (s : State) : State :=
  { s with
    trap := some
      { cause := cause, pc := s.pc, opcode := (fetch s).head?, operands := operands,
        info := info } }

/-- What the machine answers when the pseudocode of an instruction with these operand words, run
from s, has come to its end: it completes and is counted (R131), it traps (R126), or it stalls and
"everything else stay[s] as [it was]" (46_io_system.md R111; log 23). -/
def settle (operands : List Word) (s : State) : Except Stop State → Answer
  | .ok t => .next t.count
  | .error (.raise cause info) => .next (takeTrap cause info operands s)
  | .error .stall => .next s

/-- The trap cause and info of a decoder error (60_exceptions.md R120). -/
def decodeCause : DecodeError → TrapCause × Option Word
  | .empty => (.decodeEmpty, none)
  | .parameterMissing op => (.decodeParameterMissing, some op)
  | .notImplemented op => (.decodeNotImplemented, some op)
  | .invalid op => (.decodeInvalid, some op)

/-- The operand words a decode trap records: those present in the window for
DecodeParameterMissing, none for the others (R127). -/
def decodeOperands (window : List Word) : DecodeError → List Word
  | .parameterMissing _ => window.tail
  | .empty => []
  | .notImplemented _ => []
  | .invalid _ => []

/-- Fetch or decode failed: the trap of R126 before any instruction is known. -/
def takeDecodeTrap (e : DecodeError) (s : State) : State :=
  takeTrap (decodeCause e).1 (decodeCause e).2 (decodeOperands (fetch s) e) s

/-- Reset with a program image and `INBUF_PRELOAD` (70_reset_and_hazards.md R150). The host's
agenda is the host's, not the core's, and stays (log 3). -/
def resetWith (image : List Word) (preload : List Byte) (s : State) : State :=
  { State.reset with
    heap := Memory.loadWords [] 0 image, inbuf := preload, agenda := s.agenda }

end Sys2Proof.Machine
end

