-- ==== Sys2Proof/Machine/Operands.lean ====
section
/-! DEFINITION. The operand forms and the access primitives of 20_memory.md: `Resolve`,
`RegWrite`, `RawRead`, `RawWrite`. -/

namespace Sys2Proof.Machine

/-- What a 16-bit value denotes: below 32768 a literal (or heap index), 32768 to 32775 a register,
anything else is invalid (20_memory.md R31, 30_encoding.md R51). -/
def classify (V : Word) : Operand :=
  if V.toNat < Config.regBase then .literal
  else if h : V.toNat - Config.regBase < Config.nreg then .register ⟨V.toNat - Config.regBase, h⟩
  else .invalid

/-- The loop of `Resolve` with the given number of dereferences left (20_memory.md R32). -/
def resolveFrom (x : RegFile) : Nat → Word → Except Stop Word
  | 0, V =>
    match classify V with
    | .literal => .ok V
    | .invalid => .error (.raise .addressingViolation (some V))
    | .register _ => .error (.raise .registerCycle (some V))
  | n + 1, V =>
    match classify V with
    | .literal => .ok V
    | .invalid => .error (.raise .addressingViolation (some V))
    | .register i => resolveFrom x n x[i]

/-- `Resolve(V)` (20_memory.md R32): a function of V and the registers alone (R33 (e)). -/
def resolve (x : RegFile) (V : Word) : Except Stop Word := resolveFrom x Config.maxAliasHops V

/-- The destination check (20_memory.md R34): the word itself must name a register; it is not
resolved. -/
def destination (A : Word) : Except Stop (Fin 8) :=
  match classify A with
  | .register i => .ok i
  | .literal => .error (.raise .addressingViolation (some A))
  | .invalid => .error (.raise .addressingViolation (some A))

/-- `RegWrite(A, v)` (20_memory.md R34): address check, then the value step, then the store. -/
def regWrite (A v : Word) (s : State) : Except Stop State := do
  let d ← destination A
  let t ← resolve s.x v
  return s.setReg d t

/-- `RawRead(i)` (20_memory.md R36): heap cell or stored register content, no resolution. -/
def rawRead (i : Word) (s : State) : Except Stop Word :=
  match classify i with
  | .literal => .ok (memRead s i.toNat)
  | .register r => .ok (s.reg r)
  | .invalid => .error (.raise .addressingViolation (some i))

/-- `RawWrite(i, v)` (20_memory.md R37): heap cell or register, the value stored as given. -/
def rawWrite (i v : Word) (s : State) : Except Stop State :=
  match classify i with
  | .literal => .ok (s.memWrite i.toNat v)
  | .register r => .ok (s.setReg r v)
  | .invalid => .error (.raise .addressingViolation (some i))

/-- The top word of the stack, or `StackUnderflow` (10_state.md R15; 60_exceptions.md R120). -/
def topWord (s : State) : Except Stop Word :=
  match s.top? with
  | some v => .ok v
  | none => .error (.raise .stackUnderflow none)

/-- The oldest input item, or `stall` (46_io_system.md R111). -/
def inputItem (s : State) : Except Stop Byte :=
  match s.inbuf with
  | c :: _ => .ok c
  | [] => .error .stall

/-- Operand b of a JT or JF that does not jump: resolved, with the result unused, only when
`JUMP_TARGET_EAGER` is set (42_jump.md R86, R87; log 8). -/
def untakenTarget (eager : Bool) (s : State) (b : Word) : Except Stop Unit :=
  if eager then
    match resolve s.x b with
    | .ok _ => .ok ()
    | .error e => .error e
  else .ok ()

end Sys2Proof.Machine
end

