-- ==== Sys2Proof/Machine/Flags.lean ====
section
/-! DEFINITION. The core has no status flags, condition codes or predicates (10_state.md R25): EQ and
GT write 1 or 0 into a register and JT, JF test a resolved operand. What stands in their place is
here: the truth word, the branch conditions, and the run flags with what they gate. -/

namespace Sys2Proof.Machine

/-- The 1 or 0 a comparison writes (41_compare.md R80, R81). -/
def truthWord (p : Bool) : Word := if p then 1 else 0

/-- JT's condition: any value 1 to 32767 (42_jump.md R86). -/
def jtHolds (A : Word) : Bool := A != 0

/-- JF's condition (42_jump.md R87). -/
def jfHolds (A : Word) : Bool := A == 0

/-- The document's Scheduler states, and the trapped state (10_state.md R24). -/
inductive RunState where
  | trapped
  | halted
  | running
  | steppingOnce
  | paused
deriving DecidableEq, Repr

namespace State

/-- Whether the core executes a cycle (60_exceptions.md R130). -/
def runnable (s : State) : Bool := s.trap.isNone && !s.halted && (!s.paused || s.stepOnce)

/-- The run state read off the flags (10_state.md R24). -/
def runState (s : State) : RunState :=
  if s.trap.isSome then .trapped
  else if s.halted then .halted
  else if !s.paused then .running
  else if s.stepOnce then .steppingOnce
  else .paused

end State

end Sys2Proof.Machine
end

