-- ==== Sys2Proof/Machine/Alu.lean ====
section
/-! DEFINITION. ADD, MULT, MOD, AND, OR, NOT and the arithmetic laws (43_alu.md R90 to R96). All
arithmetic is on the exact natural numbers, narrowed at the end. -/

namespace Sys2Proof.Machine

/-- (B + C) mod 32768 (R90). -/
def addWord (B C : Word) : Word := BitVec.ofNat 16 ((B.toNat + C.toNat) % Config.arithMod)

/-- (B * C) mod 32768 on the exact product (R91). -/
def multWord (B C : Word) : Word := BitVec.ofNat 16 ((B.toNat * C.toNat) % Config.arithMod)

/-- B mod C, the unsigned remainder, or `ArithmeticError` when C is 0 (R92). -/
def modWord (B C : Word) : Except Stop Word :=
  if C = 0 then .error (.raise .arithmeticError none)
  else .ok (BitVec.ofNat 16 (B.toNat % C.toNat))

/-- B & C (R93). -/
def andWord (B C : Word) : Word := B &&& C

/-- B | C (R94). -/
def orWord (B C : Word) : Word := B ||| C

/-- (~B) & 32767 (R95). -/
def notWord (B : Word) : Word := ~~~B &&& BitVec.ofNat 16 (Config.arithMod - 1)

/-- The shape the two-source ALU instructions share: destination check, both sources resolved, the
result computed (it may raise), then written (43_alu.md; 30_encoding.md R60). -/
def alu2 (f : Word → Word → Except Stop Word) (a b c : Word) (s : State) : Except Stop State := do
  let d ← destination a
  let B ← resolve s.x b
  let C ← resolve s.x c
  let r ← f B C
  return (s.setReg d r).advance 4

/-- ADD a b c (R90). -/
def execAdd (a b c : Word) (s : State) : Answer :=
  settle [a, b, c] s (alu2 (fun B C => .ok (addWord B C)) a b c s)

/-- MULT a b c (R91). -/
def execMult (a b c : Word) (s : State) : Answer :=
  settle [a, b, c] s (alu2 (fun B C => .ok (multWord B C)) a b c s)

/-- MOD a b c (R92). -/
def execMod (a b c : Word) (s : State) : Answer :=
  settle [a, b, c] s (alu2 modWord a b c s)

/-- AND a b c (R93). -/
def execAnd (a b c : Word) (s : State) : Answer :=
  settle [a, b, c] s (alu2 (fun B C => .ok (andWord B C)) a b c s)

/-- OR a b c (R94). -/
def execOr (a b c : Word) (s : State) : Answer :=
  settle [a, b, c] s (alu2 (fun B C => .ok (orWord B C)) a b c s)

/-- NOT a b (R95). -/
def execNot (a b : Word) (s : State) : Answer :=
  settle [a, b] s do
    let d ← destination a
    let B ← resolve s.x b
    return (s.setReg d (notWord B)).advance 3

end Sys2Proof.Machine
end

