-- ==== Sys2Proof/Machine/Compare.lean ====
section
/-! DEFINITION. EQ and GT (41_compare.md; their reading is decision D16, log 24). -/

namespace Sys2Proof.Machine

/-- EQ a b c (R80). -/
def execEq (a b c : Word) (s : State) : Answer :=
  settle [a, b, c] s do
    let d ← destination a
    let B ← resolve s.x b
    let C ← resolve s.x c
    return (s.setReg d (truthWord (B == C))).advance 4

/-- GT a b c (R81): unsigned. -/
def execGt (a b c : Word) (s : State) : Answer :=
  settle [a, b, c] s do
    let d ← destination a
    let B ← resolve s.x b
    let C ← resolve s.x c
    return (s.setReg d (truthWord (decide (B.toNat > C.toNat)))).advance 4

end Sys2Proof.Machine
end

