-- ==== Sys2Proof/Machine/IoSystem.lean ====
section
/-! DEFINITION. OUT, IN, NOOP, HALT (46_io_system.md). -/

namespace Sys2Proof.Machine

/-- OUT a (R110): the low 8 bits of the resolved operand. -/
def execOut (a : Word) (s : State) : Answer :=
  settle [a] s do
    let A ← resolve s.x a
    return (s.emit (A.extractLsb' 0 8)).advance 2

/-- IN a (R111): the destination check comes before the stall test; an empty buffer stalls with no
effect at all (log 23). -/
def execIn (a : Word) (s : State) : Answer :=
  settle [a] s do
    let d ← destination a
    let c ← inputItem s
    return ((s.consume c).setReg d (c.setWidth 16)).advance 2

/-- NOOP (R112). -/
def execNoop (s : State) : Answer :=
  settle [] s do
    return s.advance 1

/-- HALT (R113): pc is not changed, and the cycle is counted. -/
def execHalt (s : State) : Answer :=
  settle [] s do
    return s.setHalted

end Sys2Proof.Machine
end

