-- ==== Sys2Proof/Machine/Jump.lean ====
section
/-! DEFINITION. JMP, JT, JF (42_jump.md): absolute targets, obtained by `Resolve`. -/

namespace Sys2Proof.Machine

/-- JMP a (R85). -/
def execJmp (a : Word) (s : State) : Answer :=
  settle [a] s do
    let t ← resolve s.x a
    return s.jump t

/-- The taken or untaken end of JT and JF (R86, R87): b is resolved when the jump is taken; when it
is not, only under `JUMP_TARGET_EAGER` (log 8). -/
def branch (taken : Bool) (b : Word) (s : State) : Except Stop State :=
  if taken then do
    let t ← resolve s.x b
    return s.jump t
  else do
    untakenTarget Config.jumpTargetEager s b
    return s.advance 3

/-- JT a b (R86). -/
def execJt (a b : Word) (s : State) : Answer :=
  settle [a, b] s do
    let A ← resolve s.x a
    branch (jtHolds A) b s

/-- JF a b (R87). -/
def execJf (a b : Word) (s : State) : Answer :=
  settle [a, b] s do
    let A ← resolve s.x a
    branch (jfHolds A) b s

end Sys2Proof.Machine
end

