-- ==== Sys2Proof/Machine/MoveStack.lean ====
section
/-! DEFINITION. SET, PUSH, POP (40_move_stack.md). Each meaning is the pseudocode of its rule; the
end of the cycle, the trap or the stall is `settle`. -/

namespace Sys2Proof.Machine

/-- SET a b (R70). -/
def execSet (a b : Word) (s : State) : Answer :=
  settle [a, b] s do
    let d ← destination a
    let t ← resolve s.x b
    return (s.setReg d t).advance 3

/-- PUSH a (R71). -/
def execPush (a : Word) (s : State) : Answer :=
  settle [a] s do
    let t ← resolve s.x a
    return (s.push t).advance 2

/-- POP a (R72): the popped word is resolved like any written value; checks come first (log 10). -/
def execPop (a : Word) (s : State) : Answer :=
  settle [a] s do
    let d ← destination a
    let v ← topWord s
    let t ← resolve s.x v
    return (s.dropTop.setReg d t).advance 2

end Sys2Proof.Machine
end

