-- ==== Sys2Proof/Machine/RawMem.lean ====
section
/-! DEFINITION. RMEM and WMEM (44_rawmem.md): the index goes through `Resolve` first and raw access
second (20_memory.md R36 to R38). -/

namespace Sys2Proof.Machine

/-- RMEM a b (R100): the loaded word is itself resolved before it is written. -/
def execRmem (a b : Word) (s : State) : Answer :=
  settle [a, b] s do
    let d ← destination a
    let B ← resolve s.x b
    let M ← rawRead B s
    let t ← resolve s.x M
    return (s.setReg d t).advance 3

/-- WMEM a b (R101): operand a is a source, the index. -/
def execWmem (a b : Word) (s : State) : Answer :=
  settle [a, b] s do
    let A ← resolve s.x a
    let B ← resolve s.x b
    let t ← rawWrite A B s
    return t.advance 3

end Sys2Proof.Machine
end

