-- ==== Sys2Proof/Machine/Subroutine.lean ====
section
/-! DEFINITION. CALL and RET (45_subroutine.md). -/

namespace Sys2Proof.Machine

/-- CALL a (R105): the target is resolved before the push (log 10); the return address is pc + 2 in
16 bits, not reduced modulo 32768. -/
def execCall (a : Word) (s : State) : Answer :=
  settle [a] s do
    let t ← resolve s.x a
    return (s.push (s.pc + 2)).jump t

/-- RET (R106): the popped word is loaded as it is, not resolved. -/
def execRet (s : State) : Answer :=
  settle [] s do
    let v ← topWord s
    return s.dropTop.jump v

end Sys2Proof.Machine
end

