-- ==== Sys2Proof/Machine/HostEvents.lean ====
section
/-! DEFINITION. What each host event does to the core at a cycle boundary (60_exceptions.md R135 to
R142). The software behind the events is outside (00_scope.md R3). -/

namespace Sys2Proof.Machine

/-- The snapshot save-state takes (R140's field list, R141). -/
def State.capture (s : State) : Snapshot where
  paused := s.paused
  halted := s.halted
  cycle  := s.cycle
  pc     := s.pc
  heap   := s.heap
  x      := s.x
  stack  := s.stack
  hist   := s.hist
  inbuf  := s.inbuf
  out    := s.out

/-- load-state (R140): an unconditional overwrite of everything but `trap` and `step_once`; the
snapshot is any value, its heap brought into canonical form (log 6). -/
def State.load (s : State) (snap : Snapshot) : State :=
  { s with
    paused := snap.paused, halted := snap.halted, cycle := snap.cycle, pc := snap.pc,
    heap := Memory.canonical snap.heap, x := snap.x, stack := snap.stack, hist := snap.hist,
    inbuf := snap.inbuf, out := snap.out }

/-- supply-input (R137). -/
def State.supplyInput (s : State) (bytes : List Byte) : State :=
  { s with inbuf := s.inbuf ++ bytes }

/-- toggle-pause (R138; 90_conflicts.md C7). -/
def State.togglePause (s : State) : State := { s with paused := !s.paused }

/-- step-once (R138). -/
def State.requestStep (s : State) : State := { s with stepOnce := true }

/-- set-register (R139): stored raw, index 0 to 7, any other index refused (logs 5, 7). -/
def setRegister (i : Nat) (v : Word) (s : State) : Answer :=
  if h : i < Config.nreg then .next (s.setReg ⟨i, h⟩ v) else .refused (.setRegisterIndex i)

/-- reset with image (70_reset_and_hazards.md R150): an image longer than the heap has no meaning
(R151; log 5). -/
def resetEvent (image : List Word) (preload : List Byte) (s : State) : Answer :=
  if image.length ≤ Config.heapCells then .next (resetWith image preload s)
  else .refused (.imageTooLong image.length)

/-- An event on a core that is not trapped (R136). -/
def acceptEvent (e : HostEvent) (s : State) : Answer :=
  match e with
  | .reset image preload => resetEvent image preload s
  | .supplyInput bytes => .next (s.supplyInput bytes)
  | .togglePause => .next s.togglePause
  | .stepOnce => .next s.requestStep
  | .setRegister i v => setRegister i v s
  | .loadState snap => .next (s.load snap)
  | .saveState => .next s
  | .observe => .next s
  | .writeHistory => .next s

/-- An event on a trapped core: none is accepted but reset, and the state stays (R128; log 4). -/
def trappedEvent (e : HostEvent) (s : State) : Answer :=
  match e with
  | .reset image preload => resetEvent image preload s
  | .supplyInput _ => .next s
  | .togglePause => .next s
  | .stepOnce => .next s
  | .setRegister _ _ => .next s
  | .loadState _ => .next s
  | .saveState => .next s
  | .observe => .next s
  | .writeHistory => .next s

/-- One host event at a cycle boundary (R135). -/
def hostEvent (e : HostEvent) (s : State) : Answer :=
  if s.trap.isSome then trappedEvent e s else acceptEvent e s

end Sys2Proof.Machine
end

