-- ==== Sys2Proof/Machine/Cycle.lean ====
section
/-! DEFINITION. One cycle of the core (60_exceptions.md R130, R131), one move at a cycle boundary
(R135), and where the next instruction's words stand. -/

namespace Sys2Proof.Machine

/-- `Cycle()` (R131): fetch, decode, execute, count. A core that R130 does not let step executes
nothing and keeps its state (log 2). -/
def coreCycle (s : State) : Answer :=
  if s.runnable then
    match decode (fetch s) with
    | .ok i => exec i s
    | .error e => .next (takeDecodeTrap e s)
  else .next s

/-- One move at a cycle boundary: the host's next move, or, when the host has none, the core's
cycle (R135, 70_reset_and_hazards.md R155; logs 3, 26). -/
def boundaryMove (s : State) : Answer :=
  match s.agenda with
  | [] => coreCycle s
  | .cycle :: rest => coreCycle { s with agenda := rest }
  | .event e :: rest => hostEvent e { s with agenda := rest }

/-- The instruction that will execute next, for display only (R141): none where decode fails. -/
def nextInstr (s : State) : Option Instr :=
  match decode (fetch s) with
  | .ok i => some i
  | .error _ => none

/-- Where words placed for the next fetch begin: at pc, or at 0 where fewer than four cells are
left at pc (log 19). -/
def placeIndex (s : State) : Nat :=
  if s.pc.toNat + Config.maxLen ≤ Config.heapCells then s.pc.toNat else 0

/-- s with the table word's four words in the heap cells the next step fetches from, and the core
able to take that step: not trapped, halted or paused, and no host move before it (log 19). -/
def placeWords (s : State) (words : List Word) : State :=
  { s with
    heap := s.heap.loadWords (placeIndex s) words, pc := BitVec.ofNat 16 (placeIndex s),
    trap := none, halted := false, paused := false, agenda := [] }

end Sys2Proof.Machine
end

