-- ==== Sys2Proof/Machine/Step.lean ====
section
/-! DEFINITION. The step of the machine and the placing of one instruction for it; all they do
stands in Cycle.lean. -/

namespace Sys2Proof.Machine

/-- One move at a cycle boundary: the host's next move or the core's cycle. -/
def step (s : State) : Host.Outcome State Fault Refusal := boundaryMove s

/-- s with the instruction whose bits are w stored where `step` fetches its next instruction. -/
def State.withFetchWord (s : State) (nbits w : Nat) : State := placeWords s (tableWords nbits w)

end Sys2Proof.Machine
end

