-- ==== Sys2Proof/Machine/Control.lean ====
section
/-! DEFINITION. The decoder as control signals and the datapath they drive (30_encoding.md R59,
R60): the spec's second description of the same 22 instructions (decision D17, log 27). `step` does
not use it; it is stated to agree with `exec`, whose rules win (R59). -/

namespace Sys2Proof.Machine

/-- `a_role`: none, source (resolve it), destination (check it names a register). -/
inductive ARole where
  | none | source | dest
deriving DecidableEq, Repr

/-- `rb`: whether operand b is resolved; JT and JF resolve it if the jump is taken. -/
inductive ResolveB where
  | never | always | ifTaken
deriving DecidableEq, Repr

/-- `alu`: the operation on the resolved values A, B, C. -/
inductive AluOp where
  | none | passA | passB | eq | gt | nonzeroA | zeroA | add | mult | mod | and | or | not | low8A
deriving DecidableEq, Repr

/-- `wb`: what is written to the destination register. -/
inductive WriteBack where
  | none | alu | stk | raw | input
deriving DecidableEq, Repr

/-- `stk` -/
inductive StackOp where
  | none | pushAlu | pushRet | pop
deriving DecidableEq, Repr

/-- `mem` -/
inductive MemOp where
  | none | rd | wr
deriving DecidableEq, Repr

/-- `io` -/
inductive IoOp where
  | none | out | input
deriving DecidableEq, Repr

/-- `pcsel` -/
inductive PcSel where
  | seq | a | bIf | stk | hold
deriving DecidableEq, Repr

/-- One row of the control-signal table (R59). -/
structure Signals where
  len   : Nat
  aRole : ARole
  rb    : ResolveB
  rc    : Bool
  alu   : AluOp
  wb    : WriteBack
  stk   : StackOp
  mem   : MemOp
  io    : IoOp
  pcsel : PcSel
  halt  : Bool
deriving DecidableEq, Repr

/-- The table of R59, row by row. -/
def signals : Mnemonic → Signals
  | .halt => ⟨1, .none, .never, false, .none, .none, .none, .none, .none, .hold, true⟩
  | .set => ⟨3, .dest, .always, false, .passB, .alu, .none, .none, .none, .seq, false⟩
  | .push => ⟨2, .source, .never, false, .passA, .none, .pushAlu, .none, .none, .seq, false⟩
  | .pop => ⟨2, .dest, .never, false, .none, .stk, .pop, .none, .none, .seq, false⟩
  | .eq => ⟨4, .dest, .always, true, .eq, .alu, .none, .none, .none, .seq, false⟩
  | .gt => ⟨4, .dest, .always, true, .gt, .alu, .none, .none, .none, .seq, false⟩
  | .jmp => ⟨2, .source, .never, false, .passA, .none, .none, .none, .none, .a, false⟩
  | .jt => ⟨3, .source, .ifTaken, false, .nonzeroA, .none, .none, .none, .none, .bIf, false⟩
  | .jf => ⟨3, .source, .ifTaken, false, .zeroA, .none, .none, .none, .none, .bIf, false⟩
  | .add => ⟨4, .dest, .always, true, .add, .alu, .none, .none, .none, .seq, false⟩
  | .mult => ⟨4, .dest, .always, true, .mult, .alu, .none, .none, .none, .seq, false⟩
  | .mod => ⟨4, .dest, .always, true, .mod, .alu, .none, .none, .none, .seq, false⟩
  | .and => ⟨4, .dest, .always, true, .and, .alu, .none, .none, .none, .seq, false⟩
  | .or => ⟨4, .dest, .always, true, .or, .alu, .none, .none, .none, .seq, false⟩
  | .not => ⟨3, .dest, .always, false, .not, .alu, .none, .none, .none, .seq, false⟩
  | .rmem => ⟨3, .dest, .always, false, .none, .raw, .none, .rd, .none, .seq, false⟩
  | .wmem => ⟨3, .source, .always, false, .none, .none, .none, .wr, .none, .seq, false⟩
  | .call => ⟨2, .source, .never, false, .passA, .none, .pushRet, .none, .none, .a, false⟩
  | .ret => ⟨1, .none, .never, false, .none, .none, .pop, .none, .none, .stk, false⟩
  | .out => ⟨2, .source, .never, false, .low8A, .none, .none, .none, .out, .seq, false⟩
  | .inp => ⟨2, .dest, .never, false, .none, .input, .none, .none, .input, .seq, false⟩
  | .noop => ⟨1, .none, .never, false, .none, .none, .none, .none, .none, .seq, false⟩

/-- What phase 2 of R60 has read and checked. A value no signal asked for is 0 and unused. -/
structure Latched where
  d    : Fin 8
  A    : Word
  B    : Word
  top  : Word
  item : Byte
  M    : Word
  alu  : Word
  W    : Word
deriving DecidableEq, Repr

/-- Whether the ALU's condition output asks for the jump. -/
def aluTaken (op : AluOp) (A : Word) : Bool :=
  match op with
  | .nonzeroA => A.toNat ≠ 0
  | .zeroA => A.toNat = 0
  | .none | .passA | .passB | .eq | .gt | .add | .mult | .mod | .and | .or | .not | .low8A => false

/-- The ALU, in the terms of the table of R59; MOD raises `ArithmeticError` here (R60). -/
def aluResult (op : AluOp) (A B C : Word) : Except Stop Word :=
  match op with
  | .none => .ok 0
  | .passA => .ok A
  | .passB => .ok B
  | .eq => .ok (if B.toNat = C.toNat then 1 else 0)
  | .gt => .ok (if C.toNat < B.toNat then 1 else 0)
  | .nonzeroA => .ok (if A.toNat ≠ 0 then 1 else 0)
  | .zeroA => .ok (if A.toNat = 0 then 1 else 0)
  | .add => .ok (BitVec.ofNat 16 ((B.toNat + C.toNat) % 32768))
  | .mult => .ok (BitVec.ofNat 16 (B.toNat * C.toNat % 32768))
  | .mod => if C.toNat = 0 then .error (.raise .arithmeticError none)
    else .ok (BitVec.ofNat 16 (B.toNat % C.toNat))
  | .and => .ok (B &&& C)
  | .or => .ok (B ||| C)
  | .not => .ok (~~~B &&& 32767)
  | .low8A => .ok (A &&& 255)

/-- Phase 2 of R60, *check and read*, in the order of R124. -/
def checkAndRead (g : Signals) (a b c : Word) (s : State) : Except Stop Latched := do
  let d ← match g.aRole with
    | .dest => destination a
    | .none | .source => .ok 0
  let A ← match g.aRole with
    | .source => resolve s.x a
    | .none | .dest => .ok 0
  let B ← match g.rb with
    | .always => resolve s.x b
    | .never => .ok 0
    | .ifTaken =>
      if aluTaken g.alu A then resolve s.x b
      else if Config.jumpTargetEager then resolve s.x b
      else .ok 0
  let C ← if g.rc then resolve s.x c else .ok 0
  let top ← match g.stk with
    | .pop => topWord s
    | .none | .pushAlu | .pushRet => .ok 0
  let item ← match g.io with
    | .input => inputItem s
    | .none | .out => .ok 0
  let M ← match g.mem with
    | .rd => rawRead B s
    | .none | .wr => .ok 0
  let r ← aluResult g.alu A B C
  let W ← match g.wb with
    | .none => .ok 0
    | .alu => .ok r
    | .stk => resolve s.x top
    | .raw => resolve s.x M
    | .input => .ok (item.setWidth 16)
  return { d := d, A := A, B := B, top := top, item := item, M := M, alu := r, W := W }

/-- Phase 3 of R60, *commit*, all parts together. -/
def commit (g : Signals) (l : Latched) (s : State) : Except Stop State := do
  let next := s.pc + BitVec.ofNat 16 g.len
  let s1 := match g.stk with
    | .none => s
    | .pushAlu => s.push l.alu
    | .pushRet => s.push next
    | .pop => s.dropTop
  let s2 ← match g.mem with
    | .wr => rawWrite l.A l.B s1
    | .none | .rd => .ok s1
  let s3 := match g.wb with
    | .none => s2
    | .alu | .stk | .raw | .input => s2.setReg l.d l.W
  let s4 := match g.io with
    | .none => s3
    | .out => s3.emit (l.alu.extractLsb' 0 8)
    | .input => s3.consume l.item
  let s5 := if g.halt then s4.setHalted else s4
  return match g.pcsel with
    | .seq => s5.jump next
    | .a => s5.jump l.A
    | .bIf => s5.jump (if aluTaken g.alu l.A then l.B else next)
    | .stk => s5.jump l.top
    | .hold => s5

/-- An instruction run by driving the datapath with its row of signals (R59, R60). -/
def datapath (i : Instr) (s : State) : Answer :=
  let a := i.operands.getD 0 0
  let b := i.operands.getD 1 0
  let c := i.operands.getD 2 0
  settle i.operands s do
    let l ← checkAndRead (signals i.mnemonic) a b c s
    commit (signals i.mnemonic) l s

end Sys2Proof.Machine
end

