-- ==== Sys2Proof/Safety.lean ====
section
/-! DEFINITION. The terms claims are stated in: how a run stands (60_exceptions.md R132), and the
invariants of the machine. -/

namespace Sys2Proof.Machine

namespace State

/-- The run has ended normally (60_exceptions.md R132). -/
abbrev endedNormally (s : State) : Prop := s.halted = true ∧ s.trap = none

/-- The run has ended in a fault (R132). -/
abbrev endedInFault (s : State) : Prop := s.trap ≠ none

/-- Held by the host (R132). -/
abbrev heldByHost (s : State) : Prop :=
  s.trap = none ∧ s.halted = false ∧ s.paused = true ∧ s.stepOnce = false

/-- Held for input (R132): the core may step, the next instruction is an IN whose operand names a
register, and `inbuf` is empty (46_io_system.md R111). -/
abbrev heldForInput (s : State) : Prop :=
  s.runnable = true ∧ s.inbuf = [] ∧
    ∃ a : Word, destOk a = true ∧ decode (fetch s) = .ok (.inp a)

/-- The heap is in canonical form. -/
abbrev heapCanonical (s : State) : Prop := s.heap.wf

/-- Every register holds a literal (10_state.md R12). -/
abbrev regsLiteral (s : State) : Prop := ∀ i : Fin 8, (s.reg i).toNat < Config.regBase

/-- pc and every stack word are at most 32768 (10_state.md R14, 45_subroutine.md R105). -/
abbrev flowBounded (s : State) : Prop :=
  s.pc.toNat ≤ Config.heapCells ∧ ∀ v ∈ s.stack, v.toNat ≤ Config.heapCells

end State

/-- A host move that cannot put a value above 32767 in a register: any but set-register and
load-state (10_state.md R12). -/
def HostMove.quiet : HostMove → Bool
  | .cycle => true
  | .event (.reset _ _) => true
  | .event (.supplyInput _) => true
  | .event .togglePause => true
  | .event .stepOnce => true
  | .event (.setRegister _ _) => false
  | .event (.loadState _) => false
  | .event .saveState => true
  | .event .observe => true
  | .event .writeHistory => true

/-- Every move of the agenda is quiet. -/
abbrev State.agendaQuiet (s : State) : Prop := ∀ m ∈ s.agenda, m.quiet = true

/-- A host move that cannot replace pc or the stack by any value: any but load-state, since only it
and reset write them (60_exceptions.md R142; 70_reset_and_hazards.md R150). -/
def HostMove.loadsNothing : HostMove → Bool
  | .cycle => true
  | .event (.reset _ _) => true
  | .event (.supplyInput _) => true
  | .event .togglePause => true
  | .event .stepOnce => true
  | .event (.setRegister _ _) => true
  | .event (.loadState _) => false
  | .event .saveState => true
  | .event .observe => true
  | .event .writeHistory => true

/-- No move of the agenda is a load-state. -/
abbrev State.agendaLoadsNothing (s : State) : Prop := ∀ m ∈ s.agenda, m.loadsNothing = true

/-- The alias chain of R32 without its bound: the word itself, then register contents as long as the
word names a register. Word n of the chain, or none when it has ended before. -/
def aliasChain (x : RegFile) (V : Word) : Nat → Option Word
  | 0 => some V
  | n + 1 =>
    match classify V with
    | .register i => aliasChain x x[i] n
    | .literal => none
    | .invalid => none

/-- The chain never ends: every word of it names a register (20_memory.md R33 (c), "cyclic"). -/
def aliasCyclic (x : RegFile) (V : Word) : Prop := ∀ n : Nat, ∃ W : Word, aliasChain x V n = some W

end Sys2Proof.Machine
end

