-- ==== Sys2Proof/Certificates/Slice0/Obligations.lean ====
section
/-! DEFINITION. The statements about the machine. Each names the rule of spec/ it comes from; where a
clause is the spec's own decision (D<n>) or a choice of the model, the docstring says so and names
the log entry. Instructions are stated by their full next state, so nothing else changes. In every
such next state `cycle + 1` and `stepOnce := false` are 60_exceptions.md R131, and that `step_once`
is cleared whatever `paused` is is decision D21 (log 29); the words of the encoding and the length
added to pc are decision D2 (log 12); the docstrings say "the cycle's end (R131; D21, log 29)" and
"layout D2, log 12" for these. -/

open Sys2Proof Sys2Proof.Machine

/-! ### Terms of the statements -/

/-- The instruction traps: it answers a next state whose record has a cause and info that P allows
(P lists the causes that apply; which one is recorded when several do is O-statement
TrapOrderWithinOneInstruction, decision D8, log 9). -/
def Sys2Proof.Claims.TrapsWith (i : Instr) (s : State) (P : TrapCause → Option Word → Prop) : Prop :=
  ∃ (t : State) (r : TrapRecord), exec i s = .next t ∧ t.trap = some r ∧ P r.cause r.info

/-- The instruction traps with this cause and info. -/
def Sys2Proof.Claims.Traps (i : Instr) (s : State) (cause : TrapCause) (info : Option Word) : Prop :=
  Sys2Proof.Claims.TrapsWith i s fun c n => c = cause ∧ n = info

/-- The fault of a destination word that names no register. -/
def Sys2Proof.Claims.DestFault (a : Word) (cause : TrapCause) (info : Option Word) : Prop :=
  destOk a = false ∧ cause = .addressingViolation ∧ info = some a

/-- The fault of a source word, or of a word to be written, that does not resolve. -/
def Sys2Proof.Claims.SourceFault (x : RegFile) (V : Word) (cause : TrapCause) (info : Option Word) :
    Prop :=
  resolve x V = .error (.raise cause info)

/-- A word that does not resolve. -/
def Sys2Proof.Claims.Unresolved (x : RegFile) (V : Word) : Prop := ∀ W, resolve x V ≠ .ok W

/-- Every byte of the heap, read one by one, is unchanged. -/
def Sys2Proof.Claims.SameHeap (s t : State) : Prop :=
  ∀ a : Nat, t.heap.readByte a = s.heap.readByte a

/-- Every register is unchanged. -/
def Sys2Proof.Claims.SameRegs (s t : State) : Prop := ∀ r : Fin 8, t.reg r = s.reg r

/-- The streams, in and out, are unchanged. -/
def Sys2Proof.Claims.SameStreams (s t : State) : Prop :=
  t.out = s.out ∧ t.inbuf = s.inbuf ∧ t.hist = s.hist

/-- What no instruction but HALT writes at all: `halted`, `paused`, and the host's agenda. -/
def Sys2Proof.Claims.SameControl (s t : State) : Prop :=
  t.halted = s.halted ∧ t.paused = s.paused ∧ t.agenda = s.agenda

/-- The trap record is unchanged, or the instruction trapped and everything else is unchanged. -/
def Sys2Proof.Claims.TrapOnlyAlone (s t : State) : Prop :=
  t.trap = s.trap ∨ t = { s with trap := t.trap }

/-- The rule of an instruction with one destination and two sources whose result is the number
f B C of the resolved sources: its encoding (layout D2, log 12), its next state with the cycle's end
(60_exceptions.md R131; D21, log 29), and when it traps. -/
def Sys2Proof.Claims.TwoSourceRule (mk : Word → Word → Word → Instr) (op : Word)
    (f : Nat → Nat → Nat) : Prop :=
  ∀ (s : State) (a b c : Word),
    (∀ rest : List Word, decode (op :: a :: b :: c :: rest) = .ok (mk a b c)) ∧
    (∀ (d : Fin 8) (B C : Word), a = regWord d → resolve s.x b = .ok B → resolve s.x c = .ok C →
      exec (mk a b c) s = .next
        { s with
          x := s.x.set d (BitVec.ofNat 16 (f B.toNat C.toNat)), pc := s.pc + 4,
          cycle := s.cycle + 1, stepOnce := false }) ∧
    (destOk a = false ∨ Sys2Proof.Claims.Unresolved s.x b ∨ Sys2Proof.Claims.Unresolved s.x c →
      Sys2Proof.Claims.TrapsWith (mk a b c) s fun cause info =>
        Sys2Proof.Claims.DestFault a cause info ∨ Sys2Proof.Claims.SourceFault s.x b cause info ∨
          Sys2Proof.Claims.SourceFault s.x c cause info)

open Sys2Proof.Claims

/-! ### Memory and operands -/

/-- 20_memory.md R30: MemRead returns the cell, MemWrite sets it and changes nothing else. The heap
is canonical in every state a step makes from such a state (HeapStaysCanonical). -/
def Obligations.HeapWriteChangesOneCell : Prop :=
  ∀ (s : State) (k : Nat) (v : Word), s.heap.wf → k < 32768 →
    memRead (s.memWrite k v) k = v ∧
    (∀ j : Nat, j ≠ k → memRead (s.memWrite k v) j = memRead s j) ∧
    s.memWrite k v = { s with heap := (s.memWrite k v).heap }

/-- 20_memory.md R36, R37: raw access reaches the heap below 32768, a register's stored content in
the register window, and raises AddressingViolation above it; nothing is resolved. -/
def Obligations.RawAccessIsUnresolved : Prop :=
  ∀ (s : State) (i v : Word),
    (i.toNat < 32768 → rawRead i s = .ok (memRead s i.toNat) ∧
      rawWrite i v s = .ok (s.memWrite i.toNat v)) ∧
    (∀ r : Fin 8, i = regWord r → rawRead i s = .ok (s.reg r) ∧
      rawWrite i v s = .ok { s with x := s.x.set r v }) ∧
    (32776 ≤ i.toNat → rawRead i s = .error (.raise .addressingViolation (some i)) ∧
      rawWrite i v s = .error (.raise .addressingViolation (some i)))

/-- 20_memory.md R32: `Resolve` against the unbounded alias chain: the first word of the chain that
is no register reference decides, within 8 dereferences (decision D6, log 16); a content of 32776
or more raises with that content (decision D7, log 17). -/
def Obligations.ResolveFollowsTheAliasChain : Prop :=
  ∀ (x : RegFile) (V W : Word) (n : Nat), aliasChain x V n = some W →
    (n ≤ 8 → W.toNat < 32768 → resolve x V = .ok W) ∧
    (n ≤ 8 → 32776 ≤ W.toNat → resolve x V = .error (.raise .addressingViolation (some W))) ∧
    (∀ r : Fin 8, n = 8 → W = regWord r →
      resolve x V = .error (.raise .registerCycle (some W)))

/-- 20_memory.md R33 (c), derived there: the bound is exact. RegisterCycle is raised exactly when
the alias chain never ends. -/
def Obligations.RegisterCycleExactlyOnCyclicChains : Prop :=
  ∀ (x : RegFile) (V : Word),
    (∃ W : Word, resolve x V = .error (.raise .registerCycle (some W))) ↔ aliasCyclic x V

/-- 20_memory.md R34, R35: `RegWrite` checks the destination, resolves the value, and stores a
literal that then reads back (the check order is decision D8, log 9; 32776 or more is D7). -/
def Obligations.RegWriteStoresAResolvedLiteral : Prop :=
  ∀ (s : State) (A v : Word),
    (destOk A = false → regWrite A v s = .error (.raise .addressingViolation (some A))) ∧
    (∀ (d : Fin 8) (t : Word), A = regWord d → resolve s.x v = .ok t →
      regWrite A v s = .ok { s with x := s.x.set d t } ∧ t.toNat < 32768 ∧
      resolve (s.x.set d t) A = .ok t) ∧
    (∀ (d : Fin 8) (e : Stop), A = regWord d → resolve s.x v = .error e →
      regWrite A v s = .error e)

/-! ### What each instruction does -/

/-- 43_alu.md R90: ADD (layout D2, log 12; the cycle's end R131; D21, log 29). -/
def Obligations.AddWritesSumModulo32768 : Prop :=
  TwoSourceRule .add 9 fun B C => (B + C) % 32768

/-- 43_alu.md R91: MULT, on the exact product (opcode number: decision D1, log 11; layout D2, log 12;
the cycle's end R131; D21, log 29). -/
def Obligations.MultWritesProductModulo32768 : Prop :=
  TwoSourceRule .mult 10 fun B C => B * C % 32768

/-- 43_alu.md R93, R94: AND and OR of the resolved values (opcode numbers: D1, log 11; layout D2,
log 12; the cycle's end R131; D21, log 29). -/
def Obligations.AndOrWriteBitwiseResults : Prop :=
  TwoSourceRule .and 12 (fun B C => B &&& C) ∧ TwoSourceRule .or 13 (fun B C => B ||| C)

/-- 41_compare.md R80, R81: EQ and GT write 1 or 0, unsigned (readings: D16, log 24; opcode
numbers: D1, log 11; layout D2, log 12; the cycle's end R131; D21, log 29). -/
def Obligations.EqGtWriteOneOrZero : Prop :=
  TwoSourceRule .eq 4 (fun B C => if B = C then 1 else 0) ∧
    TwoSourceRule .gt 5 (fun B C => if B > C then 1 else 0)

/-- 43_alu.md R92: MOD writes the remainder, and a resolved divisor of 0 traps ArithmeticError
(opcode number: D1, log 11; layout D2, log 12; the cycle's end R131; D21, log 29). -/
def Obligations.ModWritesRemainderOrTraps : Prop :=
  ∀ (s : State) (a b c : Word),
    (∀ rest : List Word, decode (11 :: a :: b :: c :: rest) = .ok (.mod a b c)) ∧
    (∀ (d : Fin 8) (B C : Word), a = regWord d → resolve s.x b = .ok B → resolve s.x c = .ok C →
      C.toNat ≠ 0 →
      exec (.mod a b c) s = .next
        { s with
          x := s.x.set d (BitVec.ofNat 16 (B.toNat % C.toNat)), pc := s.pc + 4,
          cycle := s.cycle + 1, stepOnce := false }) ∧
    (∀ (d : Fin 8) (B C : Word), a = regWord d → resolve s.x b = .ok B → resolve s.x c = .ok C →
      C.toNat = 0 → Traps (.mod a b c) s .arithmeticError none) ∧
    (destOk a = false ∨ Unresolved s.x b ∨ Unresolved s.x c →
      TrapsWith (.mod a b c) s fun cause info =>
        DestFault a cause info ∨ SourceFault s.x b cause info ∨ SourceFault s.x c cause info)

/-- 43_alu.md R95: NOT is the 15-bit complement, 32767 − B (opcode number: D1, log 11; layout D2,
log 12; the cycle's end R131; D21, log 29). -/
def Obligations.NotWritesFifteenBitComplement : Prop :=
  ∀ (s : State) (a b : Word),
    (∀ rest : List Word, decode (14 :: a :: b :: rest) = .ok (.not a b)) ∧
    (∀ (d : Fin 8) (B : Word), a = regWord d → resolve s.x b = .ok B →
      exec (.not a b) s = .next
        { s with
          x := s.x.set d (BitVec.ofNat 16 (32767 - B.toNat)), pc := s.pc + 3,
          cycle := s.cycle + 1, stepOnce := false }) ∧
    (destOk a = false ∨ Unresolved s.x b →
      TrapsWith (.not a b) s fun cause info =>
        DestFault a cause info ∨ SourceFault s.x b cause info)

/-- 40_move_stack.md R70: SET (opcode number: D1, log 11; layout D2, log 12; the cycle's end R131;
D21, log 29). -/
def Obligations.SetWritesResolvedValue : Prop :=
  ∀ (s : State) (a b : Word),
    (∀ rest : List Word, decode (1 :: a :: b :: rest) = .ok (.set a b)) ∧
    (∀ (d : Fin 8) (B : Word), a = regWord d → resolve s.x b = .ok B →
      exec (.set a b) s = .next
        { s with x := s.x.set d B, pc := s.pc + 3, cycle := s.cycle + 1, stepOnce := false }) ∧
    (destOk a = false ∨ Unresolved s.x b →
      TrapsWith (.set a b) s fun cause info =>
        DestFault a cause info ∨ SourceFault s.x b cause info)

/-- 40_move_stack.md R71: PUSH (opcode number: D1, log 11; layout D2, log 12; unbounded stack: D5,
log 15; the cycle's end R131; D21, log 29). -/
def Obligations.PushAppendsResolvedValue : Prop :=
  ∀ (s : State) (a : Word),
    (∀ rest : List Word, decode (2 :: a :: rest) = .ok (.push a)) ∧
    (∀ A : Word, resolve s.x a = .ok A →
      exec (.push a) s = .next
        { s with
          stack := s.stack ++ [A], pc := s.pc + 2, cycle := s.cycle + 1, stepOnce := false }) ∧
    (Unresolved s.x a →
      TrapsWith (.push a) s fun cause info => SourceFault s.x a cause info)

/-- 40_move_stack.md R72: POP writes the resolved top word; a bad destination, an empty stack and a
top word that does not resolve trap, in every combination (a word of 32776 or more: D7, log 17;
opcode number: D1, log 11; layout D2, log 12; the cycle's end R131; D21, log 29). -/
def Obligations.PopWritesResolvedTop : Prop :=
  ∀ (s : State) (a : Word),
    (∀ rest : List Word, decode (3 :: a :: rest) = .ok (.pop a)) ∧
    (∀ (d : Fin 8) (below : List Word) (v t : Word), a = regWord d → s.stack = below ++ [v] →
      resolve s.x v = .ok t →
      exec (.pop a) s = .next
        { s with
          x := s.x.set d t, stack := below, pc := s.pc + 2, cycle := s.cycle + 1,
          stepOnce := false }) ∧
    (destOk a = true → s.stack = [] → Traps (.pop a) s .stackUnderflow none) ∧
    (destOk a = false ∨ s.stack = [] ∨
      (∃ (below : List Word) (v : Word), s.stack = below ++ [v] ∧ Unresolved s.x v) →
      TrapsWith (.pop a) s fun cause info =>
        DestFault a cause info ∨ (s.stack = [] ∧ cause = .stackUnderflow ∧ info = none) ∨
          ∃ (below : List Word) (v : Word), s.stack = below ++ [v] ∧ SourceFault s.x v cause info)

/-- 42_jump.md R85: JMP (opcode number: D1, log 11; layout D2, log 12; the cycle's end R131; D21,
log 29). -/
def Obligations.JmpSetsPcToResolvedTarget : Prop :=
  ∀ (s : State) (a : Word),
    (∀ rest : List Word, decode (6 :: a :: rest) = .ok (.jmp a)) ∧
    (∀ A : Word, resolve s.x a = .ok A →
      exec (.jmp a) s = .next { s with pc := A, cycle := s.cycle + 1, stepOnce := false } ∧
      A.toNat < 32768) ∧
    (Unresolved s.x a →
      TrapsWith (.jmp a) s fun cause info => SourceFault s.x a cause info)

/-- 42_jump.md R86, R87: JT and JF (opcode numbers: D1, log 11). The third clause of each, where b
need not resolve, is the spec's default JUMP_TARGET_EAGER = false (decision D9, log 8). Layout and
pc + 3: D2, log 12; the cycle's end R131; D21, log 29. An a that does not resolve:
ConditionalJumpsTrapOnBadCondition. -/
def Obligations.ConditionalJumpsTestResolvedOperand : Prop :=
  ∀ (s : State) (a b A : Word), resolve s.x a = .ok A →
    (∀ rest : List Word, decode (7 :: a :: b :: rest) = .ok (.jt a b) ∧
      decode (8 :: a :: b :: rest) = .ok (.jf a b)) ∧
    (∀ B : Word, resolve s.x b = .ok B →
      (A.toNat ≠ 0 → exec (.jt a b) s = .next
        { s with pc := B, cycle := s.cycle + 1, stepOnce := false }) ∧
      (A.toNat = 0 → exec (.jf a b) s = .next
        { s with pc := B, cycle := s.cycle + 1, stepOnce := false })) ∧
    (A.toNat = 0 → exec (.jt a b) s = .next
      { s with pc := s.pc + 3, cycle := s.cycle + 1, stepOnce := false }) ∧
    (A.toNat ≠ 0 → exec (.jf a b) s = .next
      { s with pc := s.pc + 3, cycle := s.cycle + 1, stepOnce := false }) ∧
    (Unresolved s.x b →
      (A.toNat ≠ 0 → TrapsWith (.jt a b) s fun cause info => SourceFault s.x b cause info) ∧
      (A.toNat = 0 → TrapsWith (.jf a b) s fun cause info => SourceFault s.x b cause info))

/-- 42_jump.md R86, R87: JT and JF whose condition operand does not resolve trap with its fault,
whatever b is (a before b: decision D8, log 9). -/
def Obligations.ConditionalJumpsTrapOnBadCondition : Prop :=
  ∀ (s : State) (a b : Word), Unresolved s.x a →
    (TrapsWith (.jt a b) s fun cause info => SourceFault s.x a cause info) ∧
    (TrapsWith (.jf a b) s fun cause info => SourceFault s.x a cause info)

/-- 44_rawmem.md R100: RMEM loads the heap cell at the resolved index and writes it RESOLVED (a word
of 32776 or more traps: D7, log 17; opcode number: D1, log 11; layout D2, log 12; the cycle's end
R131; D21, log 29). -/
def Obligations.RmemWritesResolvedHeapWord : Prop :=
  ∀ (s : State) (a b : Word),
    (∀ rest : List Word, decode (15 :: a :: b :: rest) = .ok (.rmem a b)) ∧
    (∀ (d : Fin 8) (B t : Word), a = regWord d → resolve s.x b = .ok B →
      resolve s.x (memRead s B.toNat) = .ok t →
      exec (.rmem a b) s = .next
        { s with x := s.x.set d t, pc := s.pc + 3, cycle := s.cycle + 1, stepOnce := false }) ∧
    (destOk a = false ∨ Unresolved s.x b ∨
      (∃ B : Word, resolve s.x b = .ok B ∧ Unresolved s.x (memRead s B.toNat)) →
      TrapsWith (.rmem a b) s fun cause info =>
        DestFault a cause info ∨ SourceFault s.x b cause info ∨
          ∃ B : Word, resolve s.x b = .ok B ∧ SourceFault s.x (memRead s B.toNat) cause info)

/-- 44_rawmem.md R101: WMEM stores the resolved value in the heap cell at the resolved index; every
byte outside the two of that cell reads as before (the two bytes of a cell are the model's own
layout, log 1; opcode number: D1, log 11; layout D2, log 12; the cycle's end R131; D21, log 29). -/
def Obligations.WmemStoresOneHeapCell : Prop :=
  ∀ (s : State) (a b : Word), s.heap.wf →
    (∀ rest : List Word, decode (16 :: a :: b :: rest) = .ok (.wmem a b)) ∧
    (∀ A B : Word, resolve s.x a = .ok A → resolve s.x b = .ok B →
      ∃ t : State, exec (.wmem a b) s = .next t ∧
        t = { s with
          heap := t.heap, pc := s.pc + 3, cycle := s.cycle + 1, stepOnce := false } ∧
        memRead t A.toNat = B ∧
        (∀ k : Nat, k ≠ A.toNat → memRead t k = memRead s k) ∧
        (∀ n : Nat, n ≠ 2 * A.toNat → n ≠ 2 * A.toNat + 1 →
          t.heap.readByte n = s.heap.readByte n)) ∧
    (Unresolved s.x a ∨ Unresolved s.x b →
      TrapsWith (.wmem a b) s fun cause info =>
        SourceFault s.x a cause info ∨ SourceFault s.x b cause info)

/-- 45_subroutine.md R105: CALL pushes pc + 2 and jumps (16-bit pc: D3, log 13; unbounded stack: D5,
log 15; opcode number: D1, log 11; layout and pc + 2: D2, log 12; the cycle's end R131; D21,
log 29). -/
def Obligations.CallPushesReturnAddress : Prop :=
  ∀ (s : State) (a : Word),
    (∀ rest : List Word, decode (17 :: a :: rest) = .ok (.call a)) ∧
    (∀ A : Word, resolve s.x a = .ok A →
      exec (.call a) s = .next
        { s with
          stack := s.stack ++ [s.pc + 2], pc := A, cycle := s.cycle + 1, stepOnce := false }) ∧
    (Unresolved s.x a →
      TrapsWith (.call a) s fun cause info => SourceFault s.x a cause info)

/-- 45_subroutine.md R106: RET loads the popped word unresolved; an empty stack traps (opcode
number: D1, log 11; layout D2, log 12; the cycle's end R131; D21, log 29). -/
def Obligations.RetLoadsPoppedWord : Prop :=
  ∀ s : State,
    (∀ rest : List Word, decode (18 :: rest) = .ok .ret) ∧
    (∀ (below : List Word) (v : Word), s.stack = below ++ [v] →
      exec .ret s = .next
        { s with stack := below, pc := v, cycle := s.cycle + 1, stepOnce := false }) ∧
    (s.stack = [] → Traps .ret s .stackUnderflow none)

/-- 46_io_system.md R110: OUT appends the low 8 bits, and never fails for lack of room (unbounded
`out`: D20, log 15; layout D2, log 12; the cycle's end R131; D21, log 29). -/
def Obligations.OutAppendsLowByte : Prop :=
  ∀ (s : State) (a : Word),
    (∀ rest : List Word, decode (19 :: a :: rest) = .ok (.out a)) ∧
    (∀ A : Word, resolve s.x a = .ok A →
      exec (.out a) s = .next
        { s with
          out := s.out ++ [BitVec.ofNat 8 (A.toNat % 256)], pc := s.pc + 2,
          cycle := s.cycle + 1, stepOnce := false }) ∧
    (Unresolved s.x a →
      TrapsWith (.out a) s fun cause info => SourceFault s.x a cause info)

/-- 46_io_system.md R111: IN consumes the oldest item, stalls with no effect on an empty buffer, and
checks its destination first (opcode number D1, log 11; layout D2, log 12; stall D13, logs 2, 23;
order D8, log 9; 8-bit items and `hist` at consumption D12, log 22; the cycle's end R131; D21,
log 29). -/
def Obligations.InConsumesOneItemOrStalls : Prop :=
  ∀ (s : State) (a : Word),
    (∀ rest : List Word, decode (20 :: a :: rest) = .ok (.inp a)) ∧
    (∀ (d : Fin 8) (c : Byte) (later : List Byte), a = regWord d → s.inbuf = c :: later →
      exec (.inp a) s = .next
        { s with
          x := s.x.set d (BitVec.ofNat 16 c.toNat), inbuf := later, hist := s.hist ++ [c],
          pc := s.pc + 2, cycle := s.cycle + 1, stepOnce := false }) ∧
    (destOk a = true → s.inbuf = [] → exec (.inp a) s = .next s) ∧
    (destOk a = false → Traps (.inp a) s .addressingViolation (some a))

/-- 46_io_system.md R112, R113: NOOP advances only; HALT sets `halted` and leaves pc, and its cycle
is counted (layout D2, log 12; the cycle's end R131; D21, log 29). -/
def Obligations.NoopAdvancesAndHaltHalts : Prop :=
  ∀ s : State,
    (∀ rest : List Word, decode (21 :: rest) = .ok .noop ∧ decode (0 :: rest) = .ok .halt) ∧
    exec .noop s = .next { s with pc := s.pc + 1, cycle := s.cycle + 1, stepOnce := false } ∧
    exec .halt s = .next { s with halted := true, cycle := s.cycle + 1, stepOnce := false }

/-! ### Frames -/

/-- 30_encoding.md R61 ("what a rule does not name it does not change"): SET, EQ, GT, ADD, MULT, MOD,
AND, OR, NOT, RMEM change no register but their destination, no byte of the heap, no stack, no
stream, no control bit. That `halted` stays also when the instruction traps is decision D10
(log 10). -/
def Obligations.RegisterWritersFrame : Prop :=
  ∀ (s t : State) (i : Instr) (a b c : Word),
    i ∈ [Instr.set a b, .eq a b c, .gt a b c, .add a b c, .mult a b c, .mod a b c, .and a b c,
      .or a b c, .not a b, .rmem a b] →
    exec i s = .next t →
    (∀ r : Fin 8, a ≠ regWord r → t.reg r = s.reg r) ∧ SameHeap s t ∧ t.stack = s.stack ∧
      SameStreams s t ∧ SameControl s t ∧ TrapOnlyAlone s t

/-- R61 for PUSH, POP, CALL, RET: no register but POP's destination, no byte of the heap, no stream,
no control bit; the stack changes only at its top, by one word. That a trapped POP or CALL has done
nothing is decision D8, that `halted` stays when one of them traps D10 (log 10). -/
def Obligations.StackInstructionsFrame : Prop :=
  ∀ (s t : State) (i : Instr) (a : Word),
    i ∈ [Instr.push a, .pop a, .call a, .ret] → exec i s = .next t →
    (∀ r : Fin 8, i ≠ .pop (regWord r) → t.reg r = s.reg r) ∧ SameHeap s t ∧
      SameStreams s t ∧ SameControl s t ∧ TrapOnlyAlone s t ∧
      (t.stack = s.stack ∨ (∃ v, t.stack = s.stack ++ [v]) ∨ (∃ v, s.stack = t.stack ++ [v]))

/-- R61 for JMP, JT, JF, NOOP and HALT: no register, no byte of the heap, no stack, no stream; and
no control bit, but HALT's `halted`. That `halted` stays also when JMP, JT or JF traps is decision
D10 (log 10). -/
def Obligations.JumpsNoopHaltFrame : Prop :=
  ∀ (s t : State) (i : Instr) (a b : Word),
    i ∈ [Instr.jmp a, .jt a b, .jf a b, .noop, .halt] → exec i s = .next t →
    SameRegs s t ∧ SameHeap s t ∧ t.stack = s.stack ∧ SameStreams s t ∧ t.paused = s.paused ∧
      t.agenda = s.agenda ∧ (i ≠ .halt → t.halted = s.halted) ∧ TrapOnlyAlone s t

/-- R61 for WMEM: no register, no stack, no stream, no control bit, and of the heap only the two
bytes of the cell at the resolved operand a (bytes 2A and 2A + 1 of cell A: the model's own layout,
log 1). That `halted` stays also when WMEM traps is decision D10 (log 10). -/
def Obligations.WmemFrame : Prop :=
  ∀ (s t : State) (a b : Word), s.heap.wf → exec (.wmem a b) s = .next t →
    SameRegs s t ∧ t.stack = s.stack ∧ SameStreams s t ∧ SameControl s t ∧ TrapOnlyAlone s t ∧
      (∀ A : Word, resolve s.x a = .ok A →
        ∀ n : Nat, n ≠ 2 * A.toNat → n ≠ 2 * A.toNat + 1 →
          t.heap.readByte n = s.heap.readByte n) ∧
      (Unresolved s.x a → SameHeap s t)

/-- R61 for OUT and IN: no register but IN's destination, no byte of the heap, no stack, no control
bit; OUT leaves the input side and IN leaves the output side. That a trapped IN has consumed nothing
is decision D8, that `halted` stays when OUT or IN traps D10 (log 10). -/
def Obligations.StreamInstructionsFrame : Prop :=
  ∀ (s t : State) (i : Instr) (a : Word),
    i ∈ [Instr.out a, .inp a] → exec i s = .next t →
    (∀ r : Fin 8, i ≠ .inp (regWord r) → t.reg r = s.reg r) ∧ SameHeap s t ∧
      t.stack = s.stack ∧ SameControl s t ∧ TrapOnlyAlone s t ∧
      (i = .out a → t.inbuf = s.inbuf ∧ t.hist = s.hist) ∧ (i = .inp a → t.out = s.out)

/-! ### The decoder -/

/-- 30_encoding.md R50, R52, R54, R55: for EVERY instruction and every operand word, decoding its
words gives it back whatever follows; and a window that decodes begins with the words of what it
decodes to. -/
def Obligations.DecodeEncodeRoundTrip : Prop :=
  (∀ (i : Instr) (rest : List Word), decode (encode i ++ rest) = .ok i) ∧
    ∀ (ws : List Word) (i : Instr), decode ws = .ok i →
      ∃ rest : List Word, ws = encode i ++ rest

/-- 30_encoding.md R55: an instruction whose words stand in the heap at pc and fit below the end of
the heap is the one fetch and decode give. -/
def Obligations.StoredInstructionIsFetched : Prop :=
  ∀ (s : State) (i : Instr), s.heap.wf → s.pc.toNat + i.mnemonic.len ≤ 32768 →
    decode (fetch { s with heap := s.heap.loadWords s.pc.toNat (encode i) }) = .ok i

/-- 30_encoding.md R55, R56: which windows are refused, by which error; NotImplemented never (D25,
log 31). -/
def Obligations.DecoderErrorsAreExact : Prop :=
  ∀ ws : List Word,
    (decode ws = .error .empty ↔ ws = []) ∧
    (∀ op : Word, decode ws = .error (.invalid op) ↔ ws.head? = some op ∧ 22 ≤ op.toNat) ∧
    (∀ op : Word, decode ws = .error (.parameterMissing op) ↔
      ws.head? = some op ∧
        ∃ m : Mnemonic, Mnemonic.ofOpcode op = some m ∧ ws.length < m.len) ∧
    (∀ op : Word, decode ws ≠ .error (.notImplemented op))

/-- 95_test_vectors.md S7, S8: the source's own sequences, decoded at their offsets. -/
def Obligations.SourceSequencesDecode : Prop :=
  decode [21, 19, 65, 0] = .ok .noop ∧ decode [19, 65, 0, 200] = .ok (.out 65) ∧
    decode [65, 0, 200, 0] = .error (.invalid 65) ∧ decode [0, 200, 0, 0] = .ok .halt ∧
    decode [200, 0, 0, 0] = .error (.invalid 200) ∧
    decode [9, 32768, 32769, 4] = .ok (.add 32768 32769 4) ∧
    decode [19, 32768, 0, 0] = .ok (.out 32768)

/-- 30_encoding.md R59, R60: for every instruction and state, driving the datapath with the row of
control signals gives exactly what the instruction's own rule gives (D17, log 27). -/
def Obligations.ControlSignalsImplementEveryRule : Prop :=
  ∀ (i : Instr) (s : State), datapath i s = exec i s

/-! ### The step -/

/-- 60_exceptions.md R130, R131: when the core may step, the step is `exec` of the decoded
instruction, which counts the cycle itself; when decode fails it is the decode trap; when the core
may not step, its state stays (log 2). A host move `cycle` before it only leaves the agenda. -/
def Obligations.StepRunsTheDecodedInstruction : Prop :=
  ∀ (s : State) (rest : List HostMove), (s.agenda = [] ∧ rest = [] ∨ s.agenda = .cycle :: rest) →
    (∀ i : Instr, s.trap = none → s.halted = false → (s.paused = false ∨ s.stepOnce = true) →
      decode (fetch s) = .ok i → step s = exec i { s with agenda := rest }) ∧
    (∀ e : DecodeError, s.trap = none → s.halted = false →
      (s.paused = false ∨ s.stepOnce = true) → decode (fetch s) = .error e →
      step s = .next (takeDecodeTrap e { s with agenda := rest })) ∧
    ((s.trap ≠ none ∨ s.halted = true ∨ (s.paused = true ∧ s.stepOnce = false)) →
      step s = .next { s with agenda := rest })

/-- 30_encoding.md R55, 60_exceptions.md R120, R127: the three traps of fetch and decode, as a step
of a running core takes them (the record's shape is D10, log 21). -/
def Obligations.FetchTrapsAtTheEndOfTheHeap : Prop :=
  ∀ s : State, s.agenda = [] → s.runnable = true →
    (32768 ≤ s.pc.toNat → step s = .next
      { s with trap := some (TrapRecord.mk .decodeEmpty s.pc none [] none) }) ∧
    (s.pc.toNat < 32768 → 22 ≤ (memRead s s.pc.toNat).toNat → step s = .next
      { s with trap := some (TrapRecord.mk .decodeInvalid s.pc (some (memRead s s.pc.toNat)) []
          (some (memRead s s.pc.toNat))) }) ∧
    (∀ m : Mnemonic, s.pc.toNat < 32768 → memRead s s.pc.toNat = m.opcode →
      32768 < s.pc.toNat + m.len →
      ∃ t r, step s = .next t ∧ t = { s with trap := some r } ∧
        r.cause = .decodeParameterMissing ∧ r.pc = s.pc ∧ r.opcode = some m.opcode ∧
        r.info = some m.opcode ∧ r.operands = (fetch s).tail)

/-- 60_exceptions.md R126, R127: a trapping instruction changes nothing but the record, which holds
pc, the word at pc and the operand words (precision for POP, CALL, IN is decision D8, and
`halted` left as it was is D10, log 10; the record's shape is D10, log 21). -/
def Obligations.TrapsArePrecise : Prop :=
  ∀ (i : Instr) (s t : State), s.trap = none → exec i s = .next t → t.trap ≠ none →
    ∃ r : TrapRecord, t = { s with trap := some r } ∧ r.pc = s.pc ∧ r.operands = i.operands ∧
      (s.pc.toNat < 32768 → r.opcode = some (memRead s s.pc.toNat)) ∧
      (32768 ≤ s.pc.toNat → r.opcode = none)

/-- 60_exceptions.md R124, the spec's order of detection (decision D8, log 9): destination, then
sources in order, then the empty stack, then the stall, then the zero divisor, then the value to be
written. -/
def Obligations.TrapOrderWithinOneInstruction : Prop :=
  ∀ (s : State) (i : Instr) (a b c : Word) (cause : TrapCause) (info : Option Word),
    (i.dest? = some a → destOk a = false → Traps i s .addressingViolation (some a)) ∧
    (i ∈ [Instr.eq a b c, .gt a b c, .add a b c, .mult a b c, .mod a b c, .and a b c, .or a b c] →
      destOk a = true →
      (SourceFault s.x b cause info → Traps i s cause info) ∧
      (∀ B, resolve s.x b = .ok B → SourceFault s.x c cause info → Traps i s cause info)) ∧
    (i ∈ [Instr.jt a b, .jf a b, .wmem a b] → SourceFault s.x a cause info →
      Traps i s cause info) ∧
    (destOk a = true → SourceFault s.x b cause info → Traps (.rmem a b) s cause info) ∧
    (destOk a = true → ∀ B, resolve s.x b = .ok B →
      SourceFault s.x (memRead s B.toNat) cause info → Traps (.rmem a b) s cause info)

/-- 60_exceptions.md R121, derived there: the causes each instruction can record. -/
def Obligations.TrapCausesPerInstruction : Prop :=
  ∀ (i : Instr) (s t : State) (r : TrapRecord), s.trap = none → exec i s = .next t →
    t.trap = some r →
    (r.cause = .addressingViolation ∨ r.cause = .registerCycle ∨ r.cause = .stackUnderflow ∨
      r.cause = .arithmeticError) ∧
    i ≠ .halt ∧ i ≠ .noop ∧
    (r.cause = .arithmeticError → ∃ a b c, i = .mod a b c) ∧
    (r.cause = .stackUnderflow → (∃ a, i = .pop a) ∨ i = .ret) ∧
    (i = .ret → r.cause = .stackUnderflow) ∧
    (∀ a, i = .inp a → r.cause = .addressingViolation)

/-- 60_exceptions.md R128, 95_test_vectors.md V144: a trapped core never executes again and accepts
no host event but reset; a move it does not accept is dropped (logs 2, 4). -/
def Obligations.TrappedCoreAcceptsOnlyReset : Prop :=
  ∀ s : State, s.trap ≠ none →
    (s.agenda = [] → step s = .next s) ∧
    (∀ rest, s.agenda = .cycle :: rest → step s = .next { s with agenda := rest }) ∧
    (∀ e rest, s.agenda = .event e :: rest → (∀ image preload, e ≠ .reset image preload) →
      step s = .next { s with agenda := rest }) ∧
    (∀ image preload rest, s.agenda = .event (.reset image preload) :: rest →
      image.length ≤ 32768 → ∃ t, step s = .next t ∧ t.trap = none)

/-- 60_exceptions.md R130, R131, R132, 10_state.md R22: a core that may step either is held for input
and keeps its state, or traps with nothing counted, or completes and counts exactly one cycle and
clears `step_once`; a core that may not step keeps its state (log 2). That a trapped POP, CALL or IN
has done nothing is decision D8 and that a trap leaves `halted` is D10 (log 10); that `step_once` is
cleared whatever `paused` is is D21 (log 29); the stall is D13 (log 23). -/
def Obligations.CoreStepCountsTrapsOrHolds : Prop :=
  ∀ s : State, s.agenda = [] →
    (s.runnable = false → step s = .next s) ∧
    (s.heldForInput → step s = .next s) ∧
    (s.runnable = true → ¬ s.heldForInput → ∃ t, step s = .next t ∧
      ((t.trap = none ∧ t.cycle = s.cycle + 1 ∧ t.stepOnce = false) ∨
        (∃ r, t = { s with trap := some r })))

/-- 10_state.md R24, 60_exceptions.md R130: the run states are those the flags give, and the core
may step exactly in Running and SteppingOnce. -/
def Obligations.RunStatesReadOffTheFlags : Prop :=
  ∀ s : State,
    (s.runState = .trapped ↔ s.trap ≠ none) ∧
    (s.runState = .halted ↔ s.trap = none ∧ s.halted = true) ∧
    (s.runState = .running ↔ s.trap = none ∧ s.halted = false ∧ s.paused = false) ∧
    (s.runState = .steppingOnce ↔
      s.trap = none ∧ s.halted = false ∧ s.paused = true ∧ s.stepOnce = true) ∧
    (s.runState = .paused ↔ s.heldByHost) ∧
    (s.runnable = true ↔ s.runState = .running ∨ s.runState = .steppingOnce)

/-! ### Invariants -/

/-- The heap keeps its canonical form in every step, host events included (log 1). -/
def Obligations.HeapStaysCanonical : Prop :=
  ∀ s t : State, s.heapCanonical → step s = .next t → t.heapCanonical

/-- 10_state.md R12, derived there: while the host sends no set-register and no load-state, every
register keeps holding a literal. -/
def Obligations.RegistersStayLiteral : Prop :=
  ∀ s t : State, s.regsLiteral → s.agendaQuiet → step s = .next t →
    t.regsLiteral ∧ t.agendaQuiet

/-- 10_state.md R14, 45_subroutine.md R105: while the host sends no load-state (any other event may
come, set-register too), pc and every stack word stay at most 32768, so pc never wraps and no return
address is above 32768 (16-bit pc: D3, log 13; the agenda: log 3). -/
def Obligations.FlowStaysBounded : Prop :=
  ∀ s t : State, s.flowBounded → s.agendaLoadsNothing → step s = .next t →
    t.flowBounded ∧ t.agendaLoadsNothing

/-- 10_state.md R26: the reset state meets the three invariants (values: D10, D11, log 18; the empty
agenda is the model's choice, log 3). -/
def Obligations.ResetMeetsTheInvariants : Prop :=
  State.reset.heapCanonical ∧ State.reset.regsLiteral ∧ State.reset.flowBounded ∧
    State.reset.agendaQuiet ∧ State.reset.agendaLoadsNothing

/-- 10_state.md R16, R44 of 20_memory.md: WMEM is the only instruction that changes the heap. -/
def Obligations.OnlyWmemChangesTheHeap : Prop :=
  ∀ (i : Instr) (s t : State), exec i s = .next t → (∀ a b, i ≠ .wmem a b) → t.heap = s.heap

/-- 10_state.md R17, R18, R19: a cycle only ever appends to `out` and `hist`, and it moves input
items from the front of `inbuf` to the end of `hist`, losing and reordering none (`hist` at
consumption: D12, log 22). -/
def Obligations.StreamsAreConserved : Prop :=
  ∀ s t : State, s.agenda = [] → step s = .next t →
    (∃ more, t.out = s.out ++ more ∧ more.length ≤ 1) ∧
    (∃ more, t.hist = s.hist ++ more ∧ more.length ≤ 1) ∧
    t.hist ++ t.inbuf = s.hist ++ s.inbuf

/-- 10_state.md R20, R21, R22: no instruction reads `halted`, `paused`, `step_once` or `cycle`: runs
from states that differ only in them agree in everything a program has. -/
def Obligations.ProgramsCannotSeeRunControl : Prop :=
  ∀ (i : Instr) (s t : State) (h p o : Bool) (n : Nat), exec i s = .next t →
    ∃ u, exec i { s with halted := h, paused := p, stepOnce := o, cycle := n } = .next u ∧
      u.heap = t.heap ∧ u.x = t.x ∧ u.stack = t.stack ∧ u.pc = t.pc ∧ u.out = t.out ∧
      u.inbuf = t.inbuf ∧ u.hist = t.hist ∧ u.trap = t.trap

/-- 10_state.md R20: HALT sets `halted`, no instruction clears it or sets it but HALT, and a halted
core executes no cycle (log 2). That a trapping instruction leaves `halted` as it was is decision
D10 (log 10). -/
def Obligations.OnlyHaltSetsHalted : Prop :=
  (∀ s : State, ∃ t, exec .halt s = .next t ∧ t.halted = true) ∧
    (∀ (i : Instr) (s t : State), exec i s = .next t → i ≠ .halt → t.halted = s.halted) ∧
    (∀ s : State, s.agenda = [] → s.halted = true → step s = .next s)

/-! ### Round trips over two steps -/

/-- 95_test_vectors.md S5 (45_subroutine.md R105, R106): CALL then RET returns to the word after the
CALL with the stack as it was, for any target. -/
def Obligations.CallThenRetReturns : Prop :=
  ∀ (s t : State) (a : Word), exec (.call a) s = .next t → t.trap = none →
    ∃ u, exec .ret t = .next u ∧ u.pc = s.pc + 2 ∧ u.stack = s.stack ∧ u.x = s.x ∧
      u.heap = s.heap ∧ u.cycle = s.cycle + 2

/-- 95_test_vectors.md S6 (40_move_stack.md R71, R72): PUSH then POP round-trips the exact value. -/
def Obligations.PushThenPopRoundTrips : Prop :=
  ∀ (s t : State) (a A : Word) (d : Fin 8), resolve s.x a = .ok A → exec (.push a) s = .next t →
    ∃ u, exec (.pop (regWord d)) t = .next u ∧ u.reg d = A ∧ u.stack = s.stack ∧
      (∀ r, r ≠ d → u.reg r = s.reg r)

/-! ### The host -/

/-- 60_exceptions.md R137 to R141, as a step with the event at the head of the agenda applies them
(R137 recording nothing: D12, log 22; R138 outside Paused: D21, log 29; R139 raw store and its
refused index: D14, logs 5, 7; the agenda: log 3). -/
def Obligations.HostEventsChangeWhatTheyName : Prop :=
  ∀ (s : State) (e : HostEvent) (rest : List HostMove), s.trap = none →
    s.agenda = .event e :: rest →
    (∀ bytes, e = .supplyInput bytes →
      step s = .next { s with inbuf := s.inbuf ++ bytes, agenda := rest }) ∧
    (e = .togglePause → step s = .next { s with paused := !s.paused, agenda := rest }) ∧
    (e = .stepOnce → step s = .next { s with stepOnce := true, agenda := rest }) ∧
    (∀ (i : Nat) (v : Word), e = .setRegister i v →
      (∀ h : i < 8, step s = .next { s with x := s.x.set i v, agenda := rest }) ∧
      (8 ≤ i → step s = .refused (.setRegisterIndex i))) ∧
    (e = .saveState ∨ e = .observe ∨ e = .writeHistory →
      step s = .next { s with agenda := rest })

/-- 10_state.md R26, 70_reset_and_hazards.md R150, R151: reset from any state, trapped or not, puts
every piece of state at its value (the values are D11's and D10's where R26 says so, log 18; the
agenda stays, log 3; an image longer than the heap is refused, D24, log 5). -/
def Obligations.ResetSetsEveryPieceOfState : Prop :=
  ∀ (s : State) (image : List Word) (preload : List Byte) (rest : List HostMove),
    s.agenda = .event (.reset image preload) :: rest →
    (image.length ≤ 32768 → ∃ t, step s = .next t ∧
      (∀ k : Nat, memRead t k = image.getD k 0) ∧ t.x = Vector.replicate 8 0 ∧ t.stack = [] ∧
      t.pc = 0 ∧ t.cycle = 0 ∧ t.halted = false ∧ t.paused = false ∧ t.stepOnce = false ∧
      t.out = [] ∧ t.inbuf = preload ∧ t.hist = [] ∧ t.trap = none ∧ t.agenda = rest) ∧
    (32768 < image.length → step s = .refused (.imageTooLong image.length))

/-- 60_exceptions.md R140, 95_test_vectors.md S9: loading the snapshot of a state gives back every
component of it but `trap` and `step_once` (D14, log 6). -/
def Obligations.LoadStateRestoresTheSnapshot : Prop :=
  ∀ (s s0 : State) (rest : List HostMove), s.trap = none → s0.heap.wf →
    s.agenda = .event (.loadState s0.capture) :: rest →
    step s = .next
      { s0 with trap := none, stepOnce := s.stepOnce, agenda := rest }

/-- The placed table word is what the next step runs, from every state (log 19). -/
def Obligations.PlacedTableWordRuns : Prop :=
  ∀ (s : State) (nbits w : Nat) (i : Instr), s.heap.wf → decodeTableWord nbits w = some i →
    step (s.withFetchWord nbits w) = exec i (s.withFetchWord nbits w)
end

