-- ==== Sys2Proof/Laws/Decoding.lean ====
section
/-! SUPPORT. The opcode map both ways, and what a window of words decodes to. -/

namespace Sys2Proof

@[simp] theorem Mnemonic.ofOpcode_opcode (m : Mnemonic) : ofOpcode m.opcode = some m := by
  cases m <;> rfl

/-- The map has one opcode word per row. -/
theorem Mnemonic.ofOpcode_eq_some {op : Word} {m : Mnemonic} (h : ofOpcode op = some m) :
    op = m.opcode := by
  unfold ofOpcode at h
  split at h <;> first
    | (rename_i h'; cases h; rw [← BitVec.toNat_inj, h']; rfl)
    | cases h

/-- An opcode word is in the map exactly when it is below 22. -/
theorem Mnemonic.ofOpcode_eq_none {op : Word} : ofOpcode op = none ↔ 22 ≤ op.toNat := by
  unfold ofOpcode
  (split <;> simp_all); omega

theorem Instr.operands_length (i : Instr) : i.operands.length = i.mnemonic.arity := by
  cases i <;> rfl

/-- The row's instruction is built from its operand words, whatever follows them. -/
theorem Instr.build_operands (i : Instr) (rest : List Word) :
    Instr.build i.mnemonic (i.operands ++ rest) = some i := by
  cases i <;> rfl

/-- What was built is of that row, and its operand words are the first of those given. -/
theorem Instr.build_eq_some {m : Mnemonic} {ws : List Word} {i : Instr}
    (h : Instr.build m ws = some i) : i.mnemonic = m ∧ ws = i.operands ++ ws.drop m.arity := by
  unfold Instr.build at h
  split at h <;> first
    | (cases h; exact ⟨rfl, rfl⟩)
    | cases h

/-- Building fails exactly when an operand word is missing. -/
theorem Instr.build_eq_none {m : Mnemonic} {ws : List Word} :
    Instr.build m ws = none ↔ ws.length < m.arity := by
  cases m <;> rcases ws with _ | ⟨a, _ | ⟨b, _ | ⟨c, ws⟩⟩⟩ <;> simp [Instr.build, Mnemonic.arity]

theorem decode_eq_ok {ws : List Word} {i : Instr} (h : decode ws = .ok i) :
    ∃ rest, ws = i.mnemonic.opcode :: rest ∧ Instr.build i.mnemonic rest = some i := by
  unfold decode at h
  split at h
  · cases h
  · rename_i op rest
    split at h
    · cases h
    · rename_i m hm
      split at h
      · cases h
      · rename_i j hj
        cases h
        have hb := Instr.build_eq_some hj
        rw [hb.1]
        exact ⟨rest, by rw [Mnemonic.ofOpcode_eq_some hm], hj⟩

@[simp] theorem encode_length (i : Instr) : (encode i).length = i.mnemonic.len := by
  simp [encode, Mnemonic.len, Instr.operands_length]
  omega

end Sys2Proof
end

