-- ==== Sys2Proof/Laws/Operands.lean ====
section
/-! SUPPORT. Everything the access primitives can do (20_memory.md), one lemma per primitive, and how
an instruction's pseudocode can end. -/

namespace Sys2Proof.Machine

theorem bind_ok {α β : Type} (v : α) (k : α → Except Stop β) : (Except.ok v >>= k) = k v := rfl

theorem bind_error {α β : Type} (e : Stop) (k : α → Except Stop β) :
    ((Except.error e : Except Stop α) >>= k) = .error e := rfl

/-- A sequence completes exactly when both its parts do. -/
theorem bind_eq_ok {α β : Type} {m : Except Stop α} {k : α → Except Stop β} {r : β} :
    (m >>= k) = .ok r ↔ ∃ v, m = .ok v ∧ k v = .ok r := by
  cases m with
  | ok v => simp [bind_ok]
  | error e => simp [bind_error]

/-- A sequence stops where its first part stops, or else where its second does. -/
theorem bind_eq_error {α β : Type} {m : Except Stop α} {k : α → Except Stop β} {e : Stop} :
    (m >>= k) = .error e ↔ m = .error e ∨ ∃ v, m = .ok v ∧ k v = .error e := by
  cases m with
  | ok v => simp [bind_ok]
  | error e => simp [bind_error]

/-! ### Operand words -/

@[simp] theorem regWord_toNat (i : Fin 8) : (regWord i).toNat = 32768 + i.val := by
  have := i.isLt
  simp [regWord]
  omega

theorem regWord_injective {i j : Fin 8} (h : regWord i = regWord j) : i = j := by
  have := congrArg BitVec.toNat h
  simp at this
  exact Fin.ext this

theorem classify_eq_literal {V : Word} : classify V = .literal ↔ V.toNat < 32768 := by
  unfold classify
  simp only [Config.regBase, Config.nreg]
  split
  · simp_all
  · split <;> simp_all

theorem classify_eq_register {V : Word} {i : Fin 8} :
    classify V = .register i ↔ V = regWord i := by
  rw [← BitVec.toNat_inj, regWord_toNat]
  have := i.isLt
  unfold classify
  simp only [Config.regBase, Config.nreg]
  split
  · simp; omega
  · split
    · simp only [Operand.register.injEq, Fin.ext_iff]
      omega
    · simp; omega

theorem classify_eq_invalid {V : Word} : classify V = .invalid ↔ 32776 ≤ V.toNat := by
  unfold classify
  simp only [Config.regBase, Config.nreg]
  split
  · simp; omega
  · split <;> simp <;> omega

@[simp] theorem classify_regWord (i : Fin 8) : classify (regWord i) = .register i :=
  classify_eq_register.2 rfl

/-- A word names a register exactly in the window 32768 to 32775. -/
theorem destOk_iff {a : Word} : destOk a = true ↔ ∃ i, a = regWord i := by
  constructor
  · intro h
    simp only [destOk, Config.regBase, Config.regTop, Bool.and_eq_true, decide_eq_true_eq] at h
    refine ⟨⟨a.toNat - 32768, by omega⟩, ?_⟩
    rw [← BitVec.toNat_inj, regWord_toNat]
    simp; omega
  · rintro ⟨i, rfl⟩
    have := i.isLt
    simp [destOk]
    omega

/-! ### Resolve -/

theorem resolveFrom_literal (x : RegFile) (n : Nat) {V : Word} (h : V.toNat < 32768) :
    resolveFrom x n V = .ok V := by
  cases n <;> simp [resolveFrom, classify_eq_literal.2 h]

theorem resolveFrom_invalid (x : RegFile) (n : Nat) {V : Word} (h : 32776 ≤ V.toNat) :
    resolveFrom x n V = .error (.raise .addressingViolation (some V)) := by
  cases n <;> simp [resolveFrom, classify_eq_invalid.2 h]

theorem resolveFrom_register_zero (x : RegFile) (i : Fin 8) :
    resolveFrom x 0 (regWord i) = .error (.raise .registerCycle (some (regWord i))) := by
  simp [resolveFrom]

theorem resolveFrom_register_succ (x : RegFile) (n : Nat) (i : Fin 8) :
    resolveFrom x (n + 1) (regWord i) = resolveFrom x n x[i] := by
  simp [resolveFrom]

/-- Identity on literals (R33 (a)). -/
theorem resolve_literal (x : RegFile) {V : Word} (h : V.toNat < 32768) : resolve x V = .ok V :=
  resolveFrom_literal x _ h

/-- A word outside [0, 32775] raises (R32). -/
theorem resolve_invalid (x : RegFile) {V : Word} (h : 32776 ≤ V.toNat) :
    resolve x V = .error (.raise .addressingViolation (some V)) :=
  resolveFrom_invalid x _ h

/-- A register that holds a literal resolves to it (R33 (d)). -/
theorem resolve_register_literal {x : RegFile} {i : Fin 8} (h : x[i].toNat < 32768) :
    resolve x (regWord i) = .ok x[i] := by
  rw [resolve, Config.maxAliasHops, resolveFrom_register_succ, resolveFrom_literal x _ h]

theorem resolveFrom_ok_lt {x : RegFile} {n : Nat} {V W : Word} (h : resolveFrom x n V = .ok W) :
    W.toNat < 32768 := by
  induction n generalizing V with
  | zero =>
    cases hc : classify V with
    | literal => simp [resolveFrom, hc] at h; exact h ▸ classify_eq_literal.1 hc
    | register i => simp [resolveFrom, hc] at h
    | invalid => simp [resolveFrom, hc] at h
  | succ n ih =>
    cases hc : classify V with
    | literal => simp [resolveFrom, hc] at h; exact h ▸ classify_eq_literal.1 hc
    | register i => simp [resolveFrom, hc] at h; exact ih h
    | invalid => simp [resolveFrom, hc] at h

/-- A resolved value is a literal (R33 (b)). -/
theorem resolve_ok_lt {x : RegFile} {V W : Word} (h : resolve x V = .ok W) : W.toNat < 32768 :=
  resolveFrom_ok_lt h

theorem resolveFrom_error {x : RegFile} {n : Nat} {V : Word} {e : Stop}
    (h : resolveFrom x n V = .error e) :
    (∃ W : Word, 32776 ≤ W.toNat ∧ e = .raise .addressingViolation (some W)) ∨
      ∃ i : Fin 8, e = .raise .registerCycle (some (regWord i)) := by
  induction n generalizing V with
  | zero =>
    cases hc : classify V with
    | literal => simp [resolveFrom, hc] at h
    | register i =>
      rw [classify_eq_register.1 hc, resolveFrom_register_zero] at h
      exact .inr ⟨i, by simpa using h.symm⟩
    | invalid =>
      simp [resolveFrom, hc] at h
      exact .inl ⟨V, classify_eq_invalid.1 hc, h.symm⟩
  | succ n ih =>
    cases hc : classify V with
    | literal => simp [resolveFrom, hc] at h
    | register i => simp [resolveFrom, hc] at h; exact ih h
    | invalid =>
      simp [resolveFrom, hc] at h
      exact .inl ⟨V, classify_eq_invalid.1 hc, h.symm⟩

/-- Resolution fails only by the two traps of R32, never by a stall. -/
theorem resolve_error {x : RegFile} {V : Word} {e : Stop} (h : resolve x V = .error e) :
    (∃ W : Word, 32776 ≤ W.toNat ∧ e = .raise .addressingViolation (some W)) ∨
      ∃ i : Fin 8, e = .raise .registerCycle (some (regWord i)) :=
  resolveFrom_error h

/-! ### Destinations, raw access, stack, input -/

@[simp] theorem destination_regWord (i : Fin 8) : destination (regWord i) = .ok i := by
  simp [destination]

theorem destination_eq_ok {A : Word} {d : Fin 8} : destination A = .ok d ↔ A = regWord d := by
  rw [← classify_eq_register]
  unfold destination
  split <;> simp_all

theorem destination_eq_error {A : Word} {e : Stop} :
    destination A = .error e ↔
      destOk A = false ∧ e = .raise .addressingViolation (some A) := by
  cases hc : classify A with
  | register i =>
    have h : destOk A = true := destOk_iff.2 ⟨i, classify_eq_register.1 hc⟩
    simp [destination, hc, h]
  | literal =>
    have h : destOk A = false := by
      rw [← Bool.not_eq_true, destOk_iff]
      rintro ⟨i, rfl⟩
      simp at hc
    simp [destination, hc, h, eq_comm]
  | invalid =>
    have h : destOk A = false := by
      rw [← Bool.not_eq_true, destOk_iff]
      rintro ⟨i, rfl⟩
      simp at hc
    simp [destination, hc, h, eq_comm]

/-- Raw read of a heap index. -/
theorem rawRead_heap {i : Word} (h : i.toNat < 32768) (s : State) :
    rawRead i s = .ok (memRead s i.toNat) := by
  simp [rawRead, classify_eq_literal.2 h]

/-- Raw write of a heap index. -/
theorem rawWrite_heap {i : Word} (h : i.toNat < 32768) (v : Word) (s : State) :
    rawWrite i v s = .ok (s.memWrite i.toNat v) := by
  simp [rawWrite, classify_eq_literal.2 h]

theorem topWord_eq_ok {s : State} {v : Word} : topWord s = .ok v ↔ s.stack.getLast? = some v := by
  unfold topWord State.top?
  split <;> simp_all

theorem topWord_eq_error {s : State} {e : Stop} :
    topWord s = .error e ↔ s.stack = [] ∧ e = .raise .stackUnderflow none := by
  unfold topWord State.top?
  split
  · rename_i v h
    have : s.stack ≠ [] := by rintro e; simp [e] at h
    simp [this]
  · rename_i h
    simp [List.getLast?_eq_none_iff.1 h, eq_comm]

/-- A stack with a top word is that word on the rest. -/
theorem topWord_ok_split {s : State} {v : Word} (h : topWord s = .ok v) :
    s.stack = s.stack.dropLast ++ [v] := by
  have h' := topWord_eq_ok.1 h
  have hne : s.stack ≠ [] := by rintro e; simp [e] at h'
  rw [List.getLast?_eq_some_getLast hne] at h'
  have := List.dropLast_append_getLast hne
  rw [Option.some.inj h'] at this
  exact this.symm

theorem inputItem_eq_ok {s : State} {c : Byte} :
    inputItem s = .ok c ↔ ∃ rest, s.inbuf = c :: rest := by
  unfold inputItem
  split <;> simp_all

theorem inputItem_eq_error {s : State} {e : Stop} :
    inputItem s = .error e ↔ s.inbuf = [] ∧ e = .stall := by
  unfold inputItem
  split <;> simp_all [eq_comm]

/-! ### The end of an instruction -/

/-- Everything `settle` can answer: the counted state, the trapped state, or the state itself. -/
theorem settle_eq_next {ws : List Word} {s t : State} {m : Except Stop State}
    (h : settle ws s m = .next t) :
    (∃ u, m = .ok u ∧ t = u.count) ∨
      (∃ cause info, m = .error (.raise cause info) ∧ t = takeTrap cause info ws s) ∨
      (m = .error .stall ∧ t = s) := by
  match m, h with
  | .ok u, h => exact .inl ⟨u, rfl, by simpa [settle] using h.symm⟩
  | .error (.raise cause info), h =>
    exact .inr (.inl ⟨cause, info, rfl, by simpa [settle] using h.symm⟩)
  | .error .stall, h => exact .inr (.inr ⟨rfl, by simpa [settle] using h.symm⟩)

/-- `settle` always answers a next state. -/
theorem settle_next (ws : List Word) (s : State) (m : Except Stop State) :
    ∃ t, settle ws s m = .next t := by
  match m with
  | .ok u => exact ⟨_, rfl⟩
  | .error (.raise cause info) => exact ⟨_, rfl⟩
  | .error .stall => exact ⟨_, rfl⟩

/-- The effect of the two-source ALU shape when it completes. -/
theorem alu2_eq_ok {f : Word → Word → Except Stop Word} {a b c : Word} {s u : State}
    (h : alu2 f a b c s = .ok u) :
    ∃ d B C r, destination a = .ok d ∧ resolve s.x b = .ok B ∧ resolve s.x c = .ok C ∧
      f B C = .ok r ∧ u = (s.setReg d r).advance 4 := by
  unfold alu2 at h
  obtain ⟨d, hd, h⟩ := bind_eq_ok.1 h
  obtain ⟨B, hB, h⟩ := bind_eq_ok.1 h
  obtain ⟨C, hC, h⟩ := bind_eq_ok.1 h
  obtain ⟨r, hr, h⟩ := bind_eq_ok.1 h
  exact ⟨d, B, C, r, hd, hB, hC, hr, (Except.ok.inj h).symm⟩

/-- The effect of a branch when it completes. -/
theorem branch_eq_ok {taken : Bool} {b : Word} {s u : State} (h : branch taken b s = .ok u) :
    (taken = true ∧ ∃ t, resolve s.x b = .ok t ∧ u = s.jump t) ∨
      (taken = false ∧ u = s.advance 3) := by
  unfold branch at h
  split at h
  · obtain ⟨t, ht, h⟩ := bind_eq_ok.1 h
    exact .inl ⟨‹_›, t, ht, (Except.ok.inj h).symm⟩
  · obtain ⟨-, -, h⟩ := bind_eq_ok.1 h
    exact .inr ⟨Bool.eq_false_iff.2 ‹_›, (Except.ok.inj h).symm⟩

end Sys2Proof.Machine
end

