-- ==== Sys2Proof/Laws/State.lean ====
section
/-! SUPPORT. One lemma per field per update of the state, each true by rfl, so that no later proof
unfolds a record update. -/

namespace Sys2Proof.Machine

variable (s : State)

@[simp] theorem State.memWrite_heap (k : Nat) (v : Word) :
    (s.memWrite k v).heap = s.heap.writeWord k v := rfl
@[simp] theorem State.memWrite_x (k : Nat) (v : Word) : (s.memWrite k v).x = s.x := rfl
@[simp] theorem State.memWrite_stack (k : Nat) (v : Word) : (s.memWrite k v).stack = s.stack := rfl
@[simp] theorem State.memWrite_pc (k : Nat) (v : Word) : (s.memWrite k v).pc = s.pc := rfl
@[simp] theorem State.memWrite_cycle (k : Nat) (v : Word) : (s.memWrite k v).cycle = s.cycle := rfl
@[simp] theorem State.memWrite_halted (k : Nat) (v : Word) :
    (s.memWrite k v).halted = s.halted := rfl
@[simp] theorem State.memWrite_paused (k : Nat) (v : Word) :
    (s.memWrite k v).paused = s.paused := rfl
@[simp] theorem State.memWrite_stepOnce (k : Nat) (v : Word) :
    (s.memWrite k v).stepOnce = s.stepOnce := rfl
@[simp] theorem State.memWrite_out (k : Nat) (v : Word) : (s.memWrite k v).out = s.out := rfl
@[simp] theorem State.memWrite_inbuf (k : Nat) (v : Word) : (s.memWrite k v).inbuf = s.inbuf := rfl
@[simp] theorem State.memWrite_hist (k : Nat) (v : Word) : (s.memWrite k v).hist = s.hist := rfl
@[simp] theorem State.memWrite_trap (k : Nat) (v : Word) : (s.memWrite k v).trap = s.trap := rfl
@[simp] theorem State.memWrite_agenda (k : Nat) (v : Word) :
    (s.memWrite k v).agenda = s.agenda := rfl

@[simp] theorem State.setReg_heap (i : Fin 8) (v : Word) : (s.setReg i v).heap = s.heap := rfl
@[simp] theorem State.setReg_x (i : Fin 8) (v : Word) : (s.setReg i v).x = s.x.set i v := rfl
@[simp] theorem State.setReg_stack (i : Fin 8) (v : Word) : (s.setReg i v).stack = s.stack := rfl
@[simp] theorem State.setReg_pc (i : Fin 8) (v : Word) : (s.setReg i v).pc = s.pc := rfl
@[simp] theorem State.setReg_cycle (i : Fin 8) (v : Word) : (s.setReg i v).cycle = s.cycle := rfl
@[simp] theorem State.setReg_halted (i : Fin 8) (v : Word) : (s.setReg i v).halted = s.halted := rfl
@[simp] theorem State.setReg_paused (i : Fin 8) (v : Word) : (s.setReg i v).paused = s.paused := rfl
@[simp] theorem State.setReg_stepOnce (i : Fin 8) (v : Word) :
    (s.setReg i v).stepOnce = s.stepOnce := rfl
@[simp] theorem State.setReg_out (i : Fin 8) (v : Word) : (s.setReg i v).out = s.out := rfl
@[simp] theorem State.setReg_inbuf (i : Fin 8) (v : Word) : (s.setReg i v).inbuf = s.inbuf := rfl
@[simp] theorem State.setReg_hist (i : Fin 8) (v : Word) : (s.setReg i v).hist = s.hist := rfl
@[simp] theorem State.setReg_trap (i : Fin 8) (v : Word) : (s.setReg i v).trap = s.trap := rfl
@[simp] theorem State.setReg_agenda (i : Fin 8) (v : Word) : (s.setReg i v).agenda = s.agenda := rfl

@[simp] theorem State.jump_heap (t : Word) : (s.jump t).heap = s.heap := rfl
@[simp] theorem State.jump_x (t : Word) : (s.jump t).x = s.x := rfl
@[simp] theorem State.jump_stack (t : Word) : (s.jump t).stack = s.stack := rfl
@[simp] theorem State.jump_pc (t : Word) : (s.jump t).pc = t := rfl
@[simp] theorem State.jump_cycle (t : Word) : (s.jump t).cycle = s.cycle := rfl
@[simp] theorem State.jump_halted (t : Word) : (s.jump t).halted = s.halted := rfl
@[simp] theorem State.jump_paused (t : Word) : (s.jump t).paused = s.paused := rfl
@[simp] theorem State.jump_stepOnce (t : Word) : (s.jump t).stepOnce = s.stepOnce := rfl
@[simp] theorem State.jump_out (t : Word) : (s.jump t).out = s.out := rfl
@[simp] theorem State.jump_inbuf (t : Word) : (s.jump t).inbuf = s.inbuf := rfl
@[simp] theorem State.jump_hist (t : Word) : (s.jump t).hist = s.hist := rfl
@[simp] theorem State.jump_trap (t : Word) : (s.jump t).trap = s.trap := rfl
@[simp] theorem State.jump_agenda (t : Word) : (s.jump t).agenda = s.agenda := rfl

@[simp] theorem State.advance_heap (n : Nat) : (s.advance n).heap = s.heap := rfl
@[simp] theorem State.advance_x (n : Nat) : (s.advance n).x = s.x := rfl
@[simp] theorem State.advance_stack (n : Nat) : (s.advance n).stack = s.stack := rfl
@[simp] theorem State.advance_pc (n : Nat) : (s.advance n).pc = s.pc + BitVec.ofNat 16 n := rfl
@[simp] theorem State.advance_cycle (n : Nat) : (s.advance n).cycle = s.cycle := rfl
@[simp] theorem State.advance_halted (n : Nat) : (s.advance n).halted = s.halted := rfl
@[simp] theorem State.advance_paused (n : Nat) : (s.advance n).paused = s.paused := rfl
@[simp] theorem State.advance_stepOnce (n : Nat) : (s.advance n).stepOnce = s.stepOnce := rfl
@[simp] theorem State.advance_out (n : Nat) : (s.advance n).out = s.out := rfl
@[simp] theorem State.advance_inbuf (n : Nat) : (s.advance n).inbuf = s.inbuf := rfl
@[simp] theorem State.advance_hist (n : Nat) : (s.advance n).hist = s.hist := rfl
@[simp] theorem State.advance_trap (n : Nat) : (s.advance n).trap = s.trap := rfl
@[simp] theorem State.advance_agenda (n : Nat) : (s.advance n).agenda = s.agenda := rfl

@[simp] theorem State.push_heap (v : Word) : (s.push v).heap = s.heap := rfl
@[simp] theorem State.push_x (v : Word) : (s.push v).x = s.x := rfl
@[simp] theorem State.push_stack (v : Word) : (s.push v).stack = s.stack ++ [v] := rfl
@[simp] theorem State.push_pc (v : Word) : (s.push v).pc = s.pc := rfl
@[simp] theorem State.push_cycle (v : Word) : (s.push v).cycle = s.cycle := rfl
@[simp] theorem State.push_halted (v : Word) : (s.push v).halted = s.halted := rfl
@[simp] theorem State.push_paused (v : Word) : (s.push v).paused = s.paused := rfl
@[simp] theorem State.push_stepOnce (v : Word) : (s.push v).stepOnce = s.stepOnce := rfl
@[simp] theorem State.push_out (v : Word) : (s.push v).out = s.out := rfl
@[simp] theorem State.push_inbuf (v : Word) : (s.push v).inbuf = s.inbuf := rfl
@[simp] theorem State.push_hist (v : Word) : (s.push v).hist = s.hist := rfl
@[simp] theorem State.push_trap (v : Word) : (s.push v).trap = s.trap := rfl
@[simp] theorem State.push_agenda (v : Word) : (s.push v).agenda = s.agenda := rfl

@[simp] theorem State.dropTop_heap : (s.dropTop).heap = s.heap := rfl
@[simp] theorem State.dropTop_x : (s.dropTop).x = s.x := rfl
@[simp] theorem State.dropTop_stack : (s.dropTop).stack = s.stack.dropLast := rfl
@[simp] theorem State.dropTop_pc : (s.dropTop).pc = s.pc := rfl
@[simp] theorem State.dropTop_cycle : (s.dropTop).cycle = s.cycle := rfl
@[simp] theorem State.dropTop_halted : (s.dropTop).halted = s.halted := rfl
@[simp] theorem State.dropTop_paused : (s.dropTop).paused = s.paused := rfl
@[simp] theorem State.dropTop_stepOnce : (s.dropTop).stepOnce = s.stepOnce := rfl
@[simp] theorem State.dropTop_out : (s.dropTop).out = s.out := rfl
@[simp] theorem State.dropTop_inbuf : (s.dropTop).inbuf = s.inbuf := rfl
@[simp] theorem State.dropTop_hist : (s.dropTop).hist = s.hist := rfl
@[simp] theorem State.dropTop_trap : (s.dropTop).trap = s.trap := rfl
@[simp] theorem State.dropTop_agenda : (s.dropTop).agenda = s.agenda := rfl

@[simp] theorem State.emit_heap (c : Byte) : (s.emit c).heap = s.heap := rfl
@[simp] theorem State.emit_x (c : Byte) : (s.emit c).x = s.x := rfl
@[simp] theorem State.emit_stack (c : Byte) : (s.emit c).stack = s.stack := rfl
@[simp] theorem State.emit_pc (c : Byte) : (s.emit c).pc = s.pc := rfl
@[simp] theorem State.emit_cycle (c : Byte) : (s.emit c).cycle = s.cycle := rfl
@[simp] theorem State.emit_halted (c : Byte) : (s.emit c).halted = s.halted := rfl
@[simp] theorem State.emit_paused (c : Byte) : (s.emit c).paused = s.paused := rfl
@[simp] theorem State.emit_stepOnce (c : Byte) : (s.emit c).stepOnce = s.stepOnce := rfl
@[simp] theorem State.emit_out (c : Byte) : (s.emit c).out = s.out ++ [c] := rfl
@[simp] theorem State.emit_inbuf (c : Byte) : (s.emit c).inbuf = s.inbuf := rfl
@[simp] theorem State.emit_hist (c : Byte) : (s.emit c).hist = s.hist := rfl
@[simp] theorem State.emit_trap (c : Byte) : (s.emit c).trap = s.trap := rfl
@[simp] theorem State.emit_agenda (c : Byte) : (s.emit c).agenda = s.agenda := rfl

@[simp] theorem State.consume_heap (c : Byte) : (s.consume c).heap = s.heap := rfl
@[simp] theorem State.consume_x (c : Byte) : (s.consume c).x = s.x := rfl
@[simp] theorem State.consume_stack (c : Byte) : (s.consume c).stack = s.stack := rfl
@[simp] theorem State.consume_pc (c : Byte) : (s.consume c).pc = s.pc := rfl
@[simp] theorem State.consume_cycle (c : Byte) : (s.consume c).cycle = s.cycle := rfl
@[simp] theorem State.consume_halted (c : Byte) : (s.consume c).halted = s.halted := rfl
@[simp] theorem State.consume_paused (c : Byte) : (s.consume c).paused = s.paused := rfl
@[simp] theorem State.consume_stepOnce (c : Byte) : (s.consume c).stepOnce = s.stepOnce := rfl
@[simp] theorem State.consume_out (c : Byte) : (s.consume c).out = s.out := rfl
@[simp] theorem State.consume_inbuf (c : Byte) : (s.consume c).inbuf = s.inbuf.tail := rfl
@[simp] theorem State.consume_hist (c : Byte) : (s.consume c).hist = s.hist ++ [c] := rfl
@[simp] theorem State.consume_trap (c : Byte) : (s.consume c).trap = s.trap := rfl
@[simp] theorem State.consume_agenda (c : Byte) : (s.consume c).agenda = s.agenda := rfl

@[simp] theorem State.setHalted_heap : (s.setHalted).heap = s.heap := rfl
@[simp] theorem State.setHalted_x : (s.setHalted).x = s.x := rfl
@[simp] theorem State.setHalted_stack : (s.setHalted).stack = s.stack := rfl
@[simp] theorem State.setHalted_pc : (s.setHalted).pc = s.pc := rfl
@[simp] theorem State.setHalted_cycle : (s.setHalted).cycle = s.cycle := rfl
@[simp] theorem State.setHalted_halted : (s.setHalted).halted = true := rfl
@[simp] theorem State.setHalted_paused : (s.setHalted).paused = s.paused := rfl
@[simp] theorem State.setHalted_stepOnce : (s.setHalted).stepOnce = s.stepOnce := rfl
@[simp] theorem State.setHalted_out : (s.setHalted).out = s.out := rfl
@[simp] theorem State.setHalted_inbuf : (s.setHalted).inbuf = s.inbuf := rfl
@[simp] theorem State.setHalted_hist : (s.setHalted).hist = s.hist := rfl
@[simp] theorem State.setHalted_trap : (s.setHalted).trap = s.trap := rfl
@[simp] theorem State.setHalted_agenda : (s.setHalted).agenda = s.agenda := rfl

@[simp] theorem State.count_heap : (s.count).heap = s.heap := rfl
@[simp] theorem State.count_x : (s.count).x = s.x := rfl
@[simp] theorem State.count_stack : (s.count).stack = s.stack := rfl
@[simp] theorem State.count_pc : (s.count).pc = s.pc := rfl
@[simp] theorem State.count_cycle : (s.count).cycle = s.cycle + 1 := rfl
@[simp] theorem State.count_halted : (s.count).halted = s.halted := rfl
@[simp] theorem State.count_paused : (s.count).paused = s.paused := rfl
@[simp] theorem State.count_stepOnce : (s.count).stepOnce = false := rfl
@[simp] theorem State.count_out : (s.count).out = s.out := rfl
@[simp] theorem State.count_inbuf : (s.count).inbuf = s.inbuf := rfl
@[simp] theorem State.count_hist : (s.count).hist = s.hist := rfl
@[simp] theorem State.count_trap : (s.count).trap = s.trap := rfl
@[simp] theorem State.count_agenda : (s.count).agenda = s.agenda := rfl

@[simp] theorem takeTrap_heap (cause : TrapCause) (info : Option Word) (ws : List Word) :
    (takeTrap cause info ws s).heap = s.heap := rfl
@[simp] theorem takeTrap_x (cause : TrapCause) (info : Option Word) (ws : List Word) :
    (takeTrap cause info ws s).x = s.x := rfl
@[simp] theorem takeTrap_stack (cause : TrapCause) (info : Option Word) (ws : List Word) :
    (takeTrap cause info ws s).stack = s.stack := rfl
@[simp] theorem takeTrap_pc (cause : TrapCause) (info : Option Word) (ws : List Word) :
    (takeTrap cause info ws s).pc = s.pc := rfl
@[simp] theorem takeTrap_cycle (cause : TrapCause) (info : Option Word) (ws : List Word) :
    (takeTrap cause info ws s).cycle = s.cycle := rfl
@[simp] theorem takeTrap_halted (cause : TrapCause) (info : Option Word) (ws : List Word) :
    (takeTrap cause info ws s).halted = s.halted := rfl
@[simp] theorem takeTrap_paused (cause : TrapCause) (info : Option Word) (ws : List Word) :
    (takeTrap cause info ws s).paused = s.paused := rfl
@[simp] theorem takeTrap_stepOnce (cause : TrapCause) (info : Option Word) (ws : List Word) :
    (takeTrap cause info ws s).stepOnce = s.stepOnce := rfl
@[simp] theorem takeTrap_out (cause : TrapCause) (info : Option Word) (ws : List Word) :
    (takeTrap cause info ws s).out = s.out := rfl
@[simp] theorem takeTrap_inbuf (cause : TrapCause) (info : Option Word) (ws : List Word) :
    (takeTrap cause info ws s).inbuf = s.inbuf := rfl
@[simp] theorem takeTrap_hist (cause : TrapCause) (info : Option Word) (ws : List Word) :
    (takeTrap cause info ws s).hist = s.hist := rfl
@[simp] theorem takeTrap_trap (cause : TrapCause) (info : Option Word) (ws : List Word) :
    (takeTrap cause info ws s).trap = some
      { cause := cause, pc := s.pc, opcode := (fetch s).head?, operands := ws, info := info } := rfl
@[simp] theorem takeTrap_agenda (cause : TrapCause) (info : Option Word) (ws : List Word) :
    (takeTrap cause info ws s).agenda = s.agenda := rfl

@[simp] theorem State.load_heap (p : Snapshot) : (s.load p).heap = Memory.canonical p.heap := rfl
@[simp] theorem State.load_x (p : Snapshot) : (s.load p).x = p.x := rfl
@[simp] theorem State.load_stack (p : Snapshot) : (s.load p).stack = p.stack := rfl
@[simp] theorem State.load_pc (p : Snapshot) : (s.load p).pc = p.pc := rfl
@[simp] theorem State.load_cycle (p : Snapshot) : (s.load p).cycle = p.cycle := rfl
@[simp] theorem State.load_halted (p : Snapshot) : (s.load p).halted = p.halted := rfl
@[simp] theorem State.load_paused (p : Snapshot) : (s.load p).paused = p.paused := rfl
@[simp] theorem State.load_stepOnce (p : Snapshot) : (s.load p).stepOnce = s.stepOnce := rfl
@[simp] theorem State.load_out (p : Snapshot) : (s.load p).out = p.out := rfl
@[simp] theorem State.load_inbuf (p : Snapshot) : (s.load p).inbuf = p.inbuf := rfl
@[simp] theorem State.load_hist (p : Snapshot) : (s.load p).hist = p.hist := rfl
@[simp] theorem State.load_trap (p : Snapshot) : (s.load p).trap = s.trap := rfl
@[simp] theorem State.load_agenda (p : Snapshot) : (s.load p).agenda = s.agenda := rfl

@[simp] theorem State.supplyInput_heap (bs : List Byte) : (s.supplyInput bs).heap = s.heap := rfl
@[simp] theorem State.supplyInput_x (bs : List Byte) : (s.supplyInput bs).x = s.x := rfl
@[simp] theorem State.supplyInput_stack (bs : List Byte) : (s.supplyInput bs).stack = s.stack := rfl
@[simp] theorem State.supplyInput_pc (bs : List Byte) : (s.supplyInput bs).pc = s.pc := rfl
@[simp] theorem State.supplyInput_cycle (bs : List Byte) : (s.supplyInput bs).cycle = s.cycle := rfl
@[simp] theorem State.supplyInput_halted (bs : List Byte) :
    (s.supplyInput bs).halted = s.halted := rfl
@[simp] theorem State.supplyInput_paused (bs : List Byte) :
    (s.supplyInput bs).paused = s.paused := rfl
@[simp] theorem State.supplyInput_stepOnce (bs : List Byte) :
    (s.supplyInput bs).stepOnce = s.stepOnce := rfl
@[simp] theorem State.supplyInput_out (bs : List Byte) : (s.supplyInput bs).out = s.out := rfl
@[simp] theorem State.supplyInput_inbuf (bs : List Byte) :
    (s.supplyInput bs).inbuf = s.inbuf ++ bs := rfl
@[simp] theorem State.supplyInput_hist (bs : List Byte) : (s.supplyInput bs).hist = s.hist := rfl
@[simp] theorem State.supplyInput_trap (bs : List Byte) : (s.supplyInput bs).trap = s.trap := rfl
@[simp] theorem State.supplyInput_agenda (bs : List Byte) :
    (s.supplyInput bs).agenda = s.agenda := rfl

@[simp] theorem State.togglePause_heap : (s.togglePause).heap = s.heap := rfl
@[simp] theorem State.togglePause_x : (s.togglePause).x = s.x := rfl
@[simp] theorem State.togglePause_stack : (s.togglePause).stack = s.stack := rfl
@[simp] theorem State.togglePause_pc : (s.togglePause).pc = s.pc := rfl
@[simp] theorem State.togglePause_cycle : (s.togglePause).cycle = s.cycle := rfl
@[simp] theorem State.togglePause_halted : (s.togglePause).halted = s.halted := rfl
@[simp] theorem State.togglePause_paused : (s.togglePause).paused = !s.paused := rfl
@[simp] theorem State.togglePause_stepOnce : (s.togglePause).stepOnce = s.stepOnce := rfl
@[simp] theorem State.togglePause_out : (s.togglePause).out = s.out := rfl
@[simp] theorem State.togglePause_inbuf : (s.togglePause).inbuf = s.inbuf := rfl
@[simp] theorem State.togglePause_hist : (s.togglePause).hist = s.hist := rfl
@[simp] theorem State.togglePause_trap : (s.togglePause).trap = s.trap := rfl
@[simp] theorem State.togglePause_agenda : (s.togglePause).agenda = s.agenda := rfl

@[simp] theorem State.requestStep_heap : (s.requestStep).heap = s.heap := rfl
@[simp] theorem State.requestStep_x : (s.requestStep).x = s.x := rfl
@[simp] theorem State.requestStep_stack : (s.requestStep).stack = s.stack := rfl
@[simp] theorem State.requestStep_pc : (s.requestStep).pc = s.pc := rfl
@[simp] theorem State.requestStep_cycle : (s.requestStep).cycle = s.cycle := rfl
@[simp] theorem State.requestStep_halted : (s.requestStep).halted = s.halted := rfl
@[simp] theorem State.requestStep_paused : (s.requestStep).paused = s.paused := rfl
@[simp] theorem State.requestStep_stepOnce : (s.requestStep).stepOnce = true := rfl
@[simp] theorem State.requestStep_out : (s.requestStep).out = s.out := rfl
@[simp] theorem State.requestStep_inbuf : (s.requestStep).inbuf = s.inbuf := rfl
@[simp] theorem State.requestStep_hist : (s.requestStep).hist = s.hist := rfl
@[simp] theorem State.requestStep_trap : (s.requestStep).trap = s.trap := rfl
@[simp] theorem State.requestStep_agenda : (s.requestStep).agenda = s.agenda := rfl

@[simp] theorem resetWith_heap (image : List Word) (bs : List Byte) :
    (resetWith image bs s).heap = Memory.loadWords [] 0 image := rfl
@[simp] theorem resetWith_x (image : List Word) (bs : List Byte) :
    (resetWith image bs s).x = Vector.replicate 8 0 := rfl
@[simp] theorem resetWith_stack (image : List Word) (bs : List Byte) :
    (resetWith image bs s).stack = [] := rfl
@[simp] theorem resetWith_pc (image : List Word) (bs : List Byte) :
    (resetWith image bs s).pc = 0 := rfl
@[simp] theorem resetWith_cycle (image : List Word) (bs : List Byte) :
    (resetWith image bs s).cycle = 0 := rfl
@[simp] theorem resetWith_halted (image : List Word) (bs : List Byte) :
    (resetWith image bs s).halted = false := rfl
@[simp] theorem resetWith_paused (image : List Word) (bs : List Byte) :
    (resetWith image bs s).paused = false := rfl
@[simp] theorem resetWith_stepOnce (image : List Word) (bs : List Byte) :
    (resetWith image bs s).stepOnce = false := rfl
@[simp] theorem resetWith_out (image : List Word) (bs : List Byte) :
    (resetWith image bs s).out = [] := rfl
@[simp] theorem resetWith_inbuf (image : List Word) (bs : List Byte) :
    (resetWith image bs s).inbuf = bs := rfl
@[simp] theorem resetWith_hist (image : List Word) (bs : List Byte) :
    (resetWith image bs s).hist = [] := rfl
@[simp] theorem resetWith_trap (image : List Word) (bs : List Byte) :
    (resetWith image bs s).trap = none := rfl
@[simp] theorem resetWith_agenda (image : List Word) (bs : List Byte) :
    (resetWith image bs s).agenda = s.agenda := rfl

/-- Reading a register after a write to it. -/
@[simp] theorem State.reg_setReg_self (i : Fin 8) (v : Word) : (s.setReg i v).reg i = v := by
  simp [State.reg]

/-- A write to one register leaves every other as it was. -/
theorem State.reg_setReg_of_ne {i j : Fin 8} (h : i ≠ j) (v : Word) :
    (s.setReg i v).reg j = s.reg j := by
  have : i.val ≠ j.val := fun e => h (Fin.ext e)
  simp [State.reg, this]

/-- A register of a state is that entry of its register file. -/
theorem State.reg_def (i : Fin 8) : s.reg i = s.x[i] := rfl

/-- The window depends on the heap and pc alone. -/
theorem fetch_congr {s t : State} (hh : s.heap = t.heap) (hp : s.pc = t.pc) : fetch s = fetch t := by
  unfold fetch memRead
  rw [hh, hp]

end Sys2Proof.Machine
end

