-- ==== Sys2Proof/Laws/Step.lean ====
section
/-! SUPPORT. Everything a step can do, said once: which move it makes, and what a cycle and a host
event can answer. -/

namespace Sys2Proof.Machine

/-- The three kinds of move at a boundary. -/
theorem step_cases {s : State} :
    (s.agenda = [] ∧ step s = coreCycle s) ∨
      (∃ rest, s.agenda = .cycle :: rest ∧ step s = coreCycle { s with agenda := rest }) ∨
      (∃ e rest, s.agenda = .event e :: rest ∧
        step s = hostEvent e { s with agenda := rest }) := by
  unfold step boundaryMove
  match h : s.agenda with
  | [] => exact .inl ⟨rfl, rfl⟩
  | .cycle :: rest => exact .inr (.inl ⟨rest, rfl, rfl⟩)
  | .event e :: rest => exact .inr (.inr ⟨e, rest, rfl, rfl⟩)

/-- What a cycle can answer: nothing happens to a core that may not step, else the decoded
instruction runs, or the decode trap is taken. -/
theorem coreCycle_cases (s : State) :
    (s.runnable = false ∧ coreCycle s = .next s) ∨
      (s.runnable = true ∧ ∃ i, decode (fetch s) = .ok i ∧ coreCycle s = exec i s) ∨
      (s.runnable = true ∧ ∃ e, decode (fetch s) = .error e ∧
        coreCycle s = .next (takeDecodeTrap e s)) := by
  unfold coreCycle
  cases hr : s.runnable with
  | false => exact .inl ⟨rfl, by simp⟩
  | true =>
    cases hd : decode (fetch s) with
    | ok i => exact .inr (.inl ⟨rfl, i, rfl, by simp⟩)
    | error e => exact .inr (.inr ⟨rfl, e, rfl, by simp⟩)

/-- What a host event can leave: the state itself, or the state one event makes. -/
theorem hostEvent_cases {e : HostEvent} {s t : State} (h : hostEvent e s = .next t) :
    t = s ∨
      (∃ image preload, e = .reset image preload ∧ image.length ≤ 32768 ∧
        t = resetWith image preload s) ∨
      (s.trap = none ∧
        ((∃ bs, e = .supplyInput bs ∧ t = s.supplyInput bs) ∨
          (e = .togglePause ∧ t = s.togglePause) ∨
          (e = .stepOnce ∧ t = s.requestStep) ∨
          (∃ i v, e = .setRegister i.val v ∧ t = s.setReg i v) ∨
          (∃ p, e = .loadState p ∧ t = s.load p))) := by
  have reset : ∀ image preload, resetEvent image preload s = .next t →
      image.length ≤ 32768 ∧ t = resetWith image preload s := by
    intro image preload h
    unfold resetEvent at h
    split at h
    · exact ⟨‹_›, by simpa using h.symm⟩
    · cases h
  unfold hostEvent at h
  split at h
  · cases e with
    | reset image preload => exact .inr (.inl ⟨image, preload, rfl, reset _ _ h⟩)
    | supplyInput _ | togglePause | stepOnce | setRegister _ _ | loadState _ | saveState
    | observe | writeHistory => exact .inl (by simpa [trappedEvent] using h.symm)
  · rename_i ht
    have ht' : s.trap = none := by simpa using ht
    cases e with
    | reset image preload => exact .inr (.inl ⟨image, preload, rfl, reset _ _ h⟩)
    | supplyInput bs =>
      exact .inr (.inr ⟨ht', .inl ⟨bs, rfl, by simpa [acceptEvent] using h.symm⟩⟩)
    | togglePause =>
      exact .inr (.inr ⟨ht', .inr (.inl ⟨rfl, by simpa [acceptEvent] using h.symm⟩)⟩)
    | stepOnce =>
      exact .inr (.inr ⟨ht', .inr (.inr (.inl ⟨rfl, by simpa [acceptEvent] using h.symm⟩))⟩)
    | setRegister i v =>
      unfold acceptEvent setRegister at h
      simp only at h
      split at h
      · rename_i hi
        exact .inr (.inr ⟨ht', .inr (.inr (.inr (.inl
          ⟨⟨i, hi⟩, v, rfl, by simpa using h.symm⟩)))⟩)
      · cases h
    | loadState p =>
      exact .inr (.inr ⟨ht', .inr (.inr (.inr (.inr
        ⟨p, rfl, by simpa [acceptEvent] using h.symm⟩)))⟩)
    | saveState => exact .inl (by simpa [acceptEvent] using h.symm)
    | observe => exact .inl (by simpa [acceptEvent] using h.symm)
    | writeHistory => exact .inl (by simpa [acceptEvent] using h.symm)

/-- Every instruction is an end of its pseudocode: `exec` answers through `settle` with the operand
words of the instruction. -/
theorem exec_eq_settle (i : Instr) (s : State) : ∃ m, exec i s = settle i.operands s m := by
  cases i with
  | halt => exact ⟨.ok s.setHalted, rfl⟩
  | noop => exact ⟨.ok (s.advance 1), rfl⟩
  | _ => exact ⟨_, rfl⟩

end Sys2Proof.Machine
end

