-- ==== Sys2Proof/Laws/Exec.lean ====
section
/-! SUPPORT. Everything an instruction can do, said once: it completes with the effect of its rule, or
it traps and only the record changes, or it stalls and nothing changes. -/

namespace Sys2Proof.Machine

/-- The effects instructions complete with, before the cycle is counted: u is the state that i leaves
when run from s. -/
inductive Completes (s : State) : Instr → State → Prop where
  /-- The ten instructions that compute a literal and write it into a register. -/
  | write {i : Instr} (d : Fin 8) (v : Word) (hd : i.dest? = some (regWord d))
      (hv : v.toNat < 32768) (notPop : ∀ a, i ≠ .pop a) (notIn : ∀ a, i ≠ .inp a) :
      Completes s i ((s.setReg d v).advance i.mnemonic.len)
  | push {a A : Word} (hA : resolve s.x a = .ok A) : Completes s (.push a) ((s.push A).advance 2)
  | pop {d : Fin 8} {below : List Word} {v t : Word} (hs : s.stack = below ++ [v])
      (ht : resolve s.x v = .ok t) :
      Completes s (.pop (regWord d)) ((s.dropTop.setReg d t).advance 2)
  | jump {i : Instr} {b B : Word} (hi : i = .jmp b ∨ (∃ c, i = .jt c b) ∨ ∃ c, i = .jf c b)
      (hB : resolve s.x b = .ok B) : Completes s i (s.jump B)
  | untaken {i : Instr} {a b : Word} (hi : i = .jt a b ∨ i = .jf a b) : Completes s i (s.advance 3)
  | wmem {a b A B : Word} (hA : resolve s.x a = .ok A) (hB : resolve s.x b = .ok B) :
      Completes s (.wmem a b) ((s.memWrite A.toNat B).advance 3)
  | call {a A : Word} (hA : resolve s.x a = .ok A) :
      Completes s (.call a) ((s.push (s.pc + 2)).jump A)
  | ret {below : List Word} {v : Word} (hs : s.stack = below ++ [v]) :
      Completes s .ret (s.dropTop.jump v)
  | out {a A : Word} (hA : resolve s.x a = .ok A) :
      Completes s (.out a) ((s.emit (A.extractLsb' 0 8)).advance 2)
  | inp {d : Fin 8} {c : Byte} {later : List Byte} (hi : s.inbuf = c :: later) :
      Completes s (.inp (regWord d)) (((s.consume c).setReg d (c.setWidth 16)).advance 2)
  | noop : Completes s .noop (s.advance 1)
  | halt : Completes s .halt s.setHalted

/-! ### Results that are written are literals -/

theorem reduced_lt (n : Nat) (h : n < 32768) : (BitVec.ofNat 16 n).toNat < 32768 := by
  simp; omega

theorem addWord_lt (B C : Word) : (addWord B C).toNat < 32768 :=
  reduced_lt _ (Nat.mod_lt _ (by decide))

theorem multWord_lt (B C : Word) : (multWord B C).toNat < 32768 :=
  reduced_lt _ (Nat.mod_lt _ (by decide))

theorem andWord_lt {B : Word} (h : B.toNat < 32768) (C : Word) : (andWord B C).toNat < 32768 := by
  simp only [andWord, BitVec.toNat_and]
  exact lt_of_le_of_lt Nat.and_le_left h

theorem orWord_lt {B C : Word} (hB : B.toNat < 32768) (hC : C.toNat < 32768) :
    (orWord B C).toNat < 32768 := by
  simp only [orWord, BitVec.toNat_or]
  exact Nat.or_lt_two_pow (n := 15) hB hC

theorem notWord_lt (B : Word) : (notWord B).toNat < 32768 := by
  simp only [notWord, Config.arithMod, BitVec.toNat_and]
  exact lt_of_le_of_lt Nat.and_le_right (by decide)

theorem truthWord_lt (p : Bool) : (truthWord p).toNat < 32768 := by cases p <;> decide

theorem modWord_lt {B C r : Word} (hB : B.toNat < 32768) (h : modWord B C = .ok r) :
    r.toNat < 32768 := by
  unfold modWord at h
  split at h
  · cases h
  · cases h
    exact reduced_lt _ (lt_of_le_of_lt (Nat.mod_le _ _) hB)

/-! ### No operand access stalls -/

theorem resolve_ne_stall {x : RegFile} {V : Word} : resolve x V ≠ .error .stall := by
  intro h
  rcases resolve_error h with ⟨_, _, h⟩ | ⟨_, h⟩ <;> cases h

theorem destination_ne_stall {V : Word} : destination V ≠ .error .stall := fun h => by
  have := (destination_eq_error.1 h).2
  cases this

theorem topWord_ne_stall {s : State} : topWord s ≠ .error .stall := fun h => by
  have := (topWord_eq_error.1 h).2
  cases this

theorem modWord_ne_stall {B C : Word} : modWord B C ≠ .error .stall := fun h => by
  unfold modWord at h
  split at h <;> cases h

/-- The pseudocode m of i, run from s: completing is one of the effects above, and only an IN with a
good destination and no input stalls. -/
def Ends (i : Instr) (s : State) (m : Except Stop State) : Prop :=
  (∀ u, m = .ok u → Completes s i u) ∧
    (m = .error .stall → (∃ d, i = .inp (regWord d)) ∧ s.inbuf = [])

theorem Ends.ok {i : Instr} {s u : State} (h : Completes s i u) : Ends i s (.ok u) :=
  ⟨fun _ hu => (by cases hu; exact h), fun h => by cases h⟩

/-- A first access that never stalls, then the rest. -/
theorem Ends.bind {α : Type} {i : Instr} {s : State} {m : Except Stop α}
    {k : α → Except Stop State} (hm : m ≠ .error .stall) (hk : ∀ v, m = .ok v → Ends i s (k v)) :
    Ends i s (m >>= k) := by
  cases m with
  | ok v => exact hk v rfl
  | error e => exact ⟨fun u h => (by cases h), fun h => absurd (by cases h; rfl) hm⟩

/-- The shape of the two-source ALU instructions. -/
theorem Ends.alu2 {f : Word → Word → Except Stop Word} {a b c : Word} {i : Instr} {s : State}
    (hi : i.dest? = some a) (hlen : i.mnemonic.len = 4) (notPop : ∀ a, i ≠ .pop a)
    (notIn : ∀ a, i ≠ .inp a)
    (hf : ∀ B C r : Word, B.toNat < 32768 → C.toNat < 32768 → f B C = .ok r → r.toNat < 32768)
    (hs : ∀ B C, f B C ≠ .error .stall) : Ends i s (Machine.alu2 f a b c s) :=
  .bind destination_ne_stall fun d hd => .bind resolve_ne_stall fun B hB =>
    .bind resolve_ne_stall fun C hC => .bind (hs B C) fun r hr => .ok (hlen ▸
      .write d r (by rw [hi, destination_eq_ok.1 hd])
        (hf B C r (resolve_ok_lt hB) (resolve_ok_lt hC) hr) notPop notIn)

/-- The shape of JT and JF after their condition. -/
theorem Ends.branch {taken : Bool} {a b : Word} {i : Instr} {s : State}
    (hi : i = .jt a b ∨ i = .jf a b) : Ends i s (Machine.branch taken b s) := by
  cases taken with
  | true =>
    exact .bind resolve_ne_stall fun t ht => .ok
      (.jump (hi.elim (fun h => .inr (.inl ⟨a, h⟩)) fun h => .inr (.inr ⟨a, h⟩)) ht)
  | false => exact .ok (.untaken hi)

/-- Every instruction ends so. -/
theorem exec_ends (i : Instr) (s : State) : ∃ m, exec i s = settle i.operands s m ∧ Ends i s m := by
  cases i with
  | halt => exact ⟨.ok s.setHalted, rfl, .ok .halt⟩
  | noop => exact ⟨.ok (s.advance 1), rfl, .ok .noop⟩
  | set a b =>
    exact ⟨_, rfl, .bind destination_ne_stall fun d hd => .bind resolve_ne_stall fun t ht => .ok
      (.write (i := .set a b) d t (by rw [← destination_eq_ok.1 hd]; rfl) (resolve_ok_lt ht)
        (by simp) (by simp))⟩
  | not a b =>
    exact ⟨_, rfl, .bind destination_ne_stall fun d hd => .bind resolve_ne_stall fun t _ => .ok
      (.write (i := .not a b) d _ (by rw [← destination_eq_ok.1 hd]; rfl) (notWord_lt t)
        (by simp) (by simp))⟩
  | rmem a b =>
    exact ⟨_, rfl, .bind destination_ne_stall fun d hd => .bind resolve_ne_stall fun B hB => by
      rw [rawRead_heap (resolve_ok_lt hB), bind_ok]
      exact .bind resolve_ne_stall fun t ht => .ok
        (.write (i := .rmem a b) d t (by rw [← destination_eq_ok.1 hd]; rfl) (resolve_ok_lt ht)
          (by simp) (by simp))⟩
  | eq a b c =>
    exact ⟨_, rfl, .bind destination_ne_stall fun d hd => .bind resolve_ne_stall fun B _ =>
      .bind resolve_ne_stall fun C _ => .ok
        (.write (i := .eq a b c) d _ (by rw [← destination_eq_ok.1 hd]; rfl) (truthWord_lt _)
          (by simp) (by simp))⟩
  | gt a b c =>
    exact ⟨_, rfl, .bind destination_ne_stall fun d hd => .bind resolve_ne_stall fun B _ =>
      .bind resolve_ne_stall fun C _ => .ok
        (.write (i := .gt a b c) d _ (by rw [← destination_eq_ok.1 hd]; rfl) (truthWord_lt _)
          (by simp) (by simp))⟩
  | add a b c =>
    exact ⟨_, rfl, .alu2 rfl rfl (by simp) (by simp)
      (fun B C r _ _ h => by cases h; exact addWord_lt B C) (by simp)⟩
  | mult a b c =>
    exact ⟨_, rfl, .alu2 rfl rfl (by simp) (by simp)
      (fun B C r _ _ h => by cases h; exact multWord_lt B C) (by simp)⟩
  | mod a b c =>
    exact ⟨_, rfl, .alu2 rfl rfl (by simp) (by simp) (fun _ _ _ hB _ h => modWord_lt hB h)
      fun _ _ => modWord_ne_stall⟩
  | and a b c =>
    exact ⟨_, rfl, .alu2 rfl rfl (by simp) (by simp)
      (fun B C r hB _ h => by cases h; exact andWord_lt hB C) (by simp)⟩
  | or a b c =>
    exact ⟨_, rfl, .alu2 rfl rfl (by simp) (by simp)
      (fun B C r hB hC h => by cases h; exact orWord_lt hB hC) (by simp)⟩
  | push a => exact ⟨_, rfl, .bind resolve_ne_stall fun A hA => .ok (.push hA)⟩
  | pop a =>
    exact ⟨_, rfl, .bind destination_ne_stall fun d hd => .bind topWord_ne_stall fun v hv =>
      .bind resolve_ne_stall fun t ht => .ok (by
        rw [destination_eq_ok.1 hd]
        exact .pop (topWord_ok_split hv) ht)⟩
  | jmp a => exact ⟨_, rfl, .bind resolve_ne_stall fun A hA => .ok (.jump (.inl rfl) hA)⟩
  | jt a b => exact ⟨_, rfl, .bind resolve_ne_stall fun A _ => .branch (.inl rfl)⟩
  | jf a b => exact ⟨_, rfl, .bind resolve_ne_stall fun A _ => .branch (.inr rfl)⟩
  | wmem a b =>
    exact ⟨_, rfl, .bind resolve_ne_stall fun A hA => .bind resolve_ne_stall fun B hB => by
      rw [rawWrite_heap (resolve_ok_lt hA), bind_ok]
      exact .ok (.wmem hA hB)⟩
  | call a => exact ⟨_, rfl, .bind resolve_ne_stall fun A hA => .ok (.call hA)⟩
  | ret =>
    exact ⟨_, rfl, .bind topWord_ne_stall fun v hv => .ok (.ret (topWord_ok_split hv))⟩
  | out a => exact ⟨_, rfl, .bind resolve_ne_stall fun A hA => .ok (.out hA)⟩
  | inp a =>
    refine ⟨_, rfl, .bind destination_ne_stall fun d hd => ?_⟩
    rw [destination_eq_ok.1 hd]
    cases hi : s.inbuf with
    | nil =>
      rw [show inputItem s = .error .stall from inputItem_eq_error.2 ⟨hi, rfl⟩]
      exact ⟨fun u h => (by cases h), fun _ => ⟨⟨d, rfl⟩, hi⟩⟩
    | cons c later =>
      rw [show inputItem s = .ok c from inputItem_eq_ok.2 ⟨later, hi⟩]
      exact .ok (.inp hi)

/-- What `exec` can answer: a completed and counted cycle, a trap that changes only the record, or,
for IN on an empty buffer, the state itself. -/
theorem exec_cases {i : Instr} {s t : State} (h : exec i s = .next t) :
    (∃ u, Completes s i u ∧ t = u.count) ∨
      (∃ cause info, t = takeTrap cause info i.operands s) ∨
      (t = s ∧ (∃ d, i = .inp (regWord d)) ∧ s.inbuf = []) := by
  obtain ⟨m, hm, hok, hstall⟩ := exec_ends i s
  rcases settle_eq_next (hm ▸ h) with ⟨u, rfl, rfl⟩ | ⟨c, n, rfl, rfl⟩ | ⟨rfl, rfl⟩
  · exact .inl ⟨u, hok u rfl, rfl⟩
  · exact .inr (.inl ⟨c, n, rfl⟩)
  · exact .inr (.inr ⟨rfl, hstall rfl⟩)

/-- `exec` always answers a next state. -/
theorem exec_next (i : Instr) (s : State) : ∃ t, exec i s = .next t := by
  obtain ⟨m, hm⟩ := exec_eq_settle i s
  exact hm ▸ settle_next _ s m

/-! ### What no instruction writes -/

theorem Completes.trap {i : Instr} {s u : State} (h : Completes s i u) : u.trap = s.trap := by
  cases h <;> rfl

theorem Completes.cycle {i : Instr} {s u : State} (h : Completes s i u) : u.cycle = s.cycle := by
  cases h <;> rfl

theorem Completes.paused {i : Instr} {s u : State} (h : Completes s i u) : u.paused = s.paused := by
  cases h <;> rfl

theorem Completes.agenda {i : Instr} {s u : State} (h : Completes s i u) : u.agenda = s.agenda := by
  cases h <;> rfl

end Sys2Proof.Machine
end

