-- ==== Sys2Proof/Laws/Memory.lean ====
section
/-! SUPPORT. The heap: read after write, every operation keeps the canonical form, and canonical
heaps with equal readings are equal. -/

namespace Sys2Proof.Machine.Memory

@[simp] theorem readByte_nil (a : Nat) : readByte [] a = unlisted := rfl

@[simp] theorem readByte_cons (k : Nat) (v : Byte) (m : Memory) (a : Nat) :
    readByte ((k, v) :: m) a = if k = a then v else readByte m a := rfl

theorem wf_nil : wf [] := ⟨List.Pairwise.nil, by simp⟩

theorem wf_cons {k : Nat} {v : Byte} {m : Memory} :
    wf ((k, v) :: m) ↔
      k < Config.heapBytes ∧ v ≠ unlisted ∧ (∀ p ∈ m, k < p.1) ∧ wf m := by
  constructor
  · rintro ⟨hp, hv⟩
    rw [List.pairwise_cons] at hp
    exact ⟨(hv _ List.mem_cons_self).1, (hv _ List.mem_cons_self).2, hp.1, hp.2,
      fun p h => hv p (List.mem_cons_of_mem _ h)⟩
  · rintro ⟨hk, hv, hlt, hp, hm⟩
    refine ⟨List.pairwise_cons.2 ⟨hlt, hp⟩, fun p h => ?_⟩
    rcases List.mem_cons.1 h with rfl | h
    · exact ⟨hk, hv⟩
    · exact hm p h

/-- An address below every listed one reads as the unlisted value. -/
theorem readByte_of_lt {m : Memory} {a : Nat} (h : ∀ p ∈ m, a < p.1) :
    readByte m a = unlisted := by
  induction m with
  | nil => rfl
  | cons c m ih =>
    obtain ⟨k, v⟩ := c
    have hk : k ≠ a := fun e => absurd (h (k, v) List.mem_cons_self) (by simp [e])
    rw [readByte_cons, if_neg hk]
    exact ih fun p hp => h p (List.mem_cons_of_mem _ hp)

/-- Reading after a write, for every canonical heap. -/
theorem readByte_writeByte {m : Memory} (hm : wf m) (a : Nat) (v : Byte) (b : Nat) :
    readByte (writeByte m a v) b = if a = b then v else readByte m b := by
  induction m with
  | nil => by_cases hv : v = unlisted <;> simp_all [writeByte]
  | cons c m ih =>
    obtain ⟨k, w⟩ := c
    obtain ⟨-, -, hlt, hm'⟩ := wf_cons.1 hm
    have below : ∀ b, b ≤ k → readByte m b = unlisted := fun b hb =>
      readByte_of_lt fun p hp => by have := hlt p hp; omega
    unfold writeByte
    split
    · rename_i h
      split
      · rename_i hv
        by_cases hab : a = b
        · subst hab
          rw [if_pos rfl, readByte_cons, if_neg (by omega), below a (by omega), hv]
        · rw [if_neg hab]
      · rw [readByte_cons]
    · split
      · rename_i _ h
        subst h
        split
        · rename_i hv
          by_cases hab : a = b
          · subst hab; rw [if_pos rfl, below a (le_refl a), hv]
          · rw [if_neg hab, readByte_cons, if_neg hab]
        · by_cases hab : a = b <;> simp [hab]
      · rename_i h1 h2
        rw [readByte_cons, readByte_cons, ih hm']
        by_cases hkb : k = b
        · rw [if_pos hkb, if_pos hkb, if_neg (by omega)]
        · rw [if_neg hkb, if_neg hkb]

/-- A write adds no address but its own. -/
theorem mem_writeByte {m : Memory} {a : Nat} {v : Byte} {p : Host.Cell}
    (h : p ∈ writeByte m a v) : p ∈ m ∨ (p = (a, v) ∧ v ≠ unlisted) := by
  induction m with
  | nil =>
    unfold writeByte at h
    split at h
    · simp at h
    · exact .inr ⟨by simpa using h, ‹_›⟩
  | cons c m ih =>
    obtain ⟨k, w⟩ := c
    unfold writeByte at h
    split at h
    · split at h
      · exact .inl h
      · rcases List.mem_cons.1 h with h | h
        · exact .inr ⟨h, ‹_›⟩
        · exact .inl h
    · split at h
      · split at h
        · exact .inl (List.mem_cons_of_mem _ h)
        · rcases List.mem_cons.1 h with h | h
          · exact .inr ⟨h, ‹_›⟩
          · exact .inl (List.mem_cons_of_mem _ h)
      · rcases List.mem_cons.1 h with h | h
        · exact .inl (by rw [h]; exact List.mem_cons_self)
        · rcases ih h with h | h
          · exact .inl (List.mem_cons_of_mem _ h)
          · exact .inr h

/-- A write inside the heap keeps the canonical form. -/
theorem wf_writeByte {m : Memory} (hm : wf m) {a : Nat} (ha : a < Config.heapBytes) (v : Byte) :
    wf (writeByte m a v) := by
  induction m with
  | nil =>
    unfold writeByte
    split
    · exact wf_nil
    · exact wf_cons.2 ⟨ha, ‹_›, by simp, wf_nil⟩
  | cons c m ih =>
    obtain ⟨k, w⟩ := c
    obtain ⟨hk, hw, hlt, hm'⟩ := wf_cons.1 hm
    unfold writeByte
    split
    · rename_i h
      split
      · exact hm
      · refine wf_cons.2 ⟨ha, ‹_›, fun p hp => ?_, hm⟩
        rcases List.mem_cons.1 hp with rfl | hp
        · exact h
        · have := hlt p hp; omega
    · split
      · rename_i _ h
        subst h
        split
        · exact hm'
        · exact wf_cons.2 ⟨ha, ‹_›, hlt, hm'⟩
      · refine wf_cons.2 ⟨hk, hw, fun p hp => ?_, ih hm'⟩
        rcases mem_writeByte hp with hp | ⟨rfl, -⟩
        · exact hlt p hp
        · simp; omega

/-- Two bytes of a word are its value. -/
theorem append_bytes (v : Word) : v.extractLsb' 8 8 ++ v.extractLsb' 0 8 = v := by
  apply BitVec.eq_of_getLsbD_eq
  intro i hi
  rw [BitVec.getLsbD_append]
  by_cases h : i < 8
  · simp [h]
  · simp only [h, if_false, BitVec.getLsbD_extractLsb']
    have : i - 8 < 8 := by omega
    simp [this, show 8 + (i - 8) = i by omega]

/-- The bytes of a heap cell after a word is written: those of the cell, and no others. -/
theorem readByte_writeWord {m : Memory} (hm : wf m) {k : Nat} (hk : k < Config.heapCells)
    (v : Word) (b : Nat) :
    readByte (writeWord m k v) b =
      if b = 2 * k then v.extractLsb' 0 8
      else if b = 2 * k + 1 then v.extractLsb' 8 8 else readByte m b := by
  have ha : 2 * k < Config.heapBytes := by
    simp only [Config.heapBytes, Config.heapCells] at *
    omega
  unfold writeWord
  rw [readByte_writeByte (wf_writeByte hm ha _), readByte_writeByte hm]
  grind

/-- Read after write of heap cells (20_memory.md R30). -/
theorem readWord_writeWord {m : Memory} (hm : wf m) {k : Nat} (hk : k < Config.heapCells)
    (v : Word) (j : Nat) :
    readWord (writeWord m k v) j = if k = j then v else readWord m j := by
  unfold readWord
  rw [readByte_writeWord hm hk, readByte_writeWord hm hk]
  by_cases h : k = j
  · subst h
    simpa using append_bytes v
  · rw [if_neg (by omega), if_neg (by omega), if_neg (by omega), if_neg (by omega), if_neg h]

theorem wf_writeWord {m : Memory} (hm : wf m) {k : Nat} (hk : k < Config.heapCells) (v : Word) :
    wf (writeWord m k v) := by
  simp only [Config.heapCells] at hk
  exact wf_writeByte (wf_writeByte hm (by simp only [Config.heapBytes]; omega) _)
    (by simp only [Config.heapBytes]; omega) _

/-- Loading an image that fits keeps the canonical form. -/
theorem wf_loadWords {m : Memory} (hm : wf m) {k : Nat} {vs : List Word}
    (h : k + vs.length ≤ Config.heapCells) : wf (loadWords m k vs) := by
  induction vs generalizing m k with
  | nil => exact hm
  | cons v vs ih =>
    simp only [List.length_cons] at h
    exact ih (wf_writeWord hm (by omega) v) (by omega)

/-- The cells after an image is loaded: the image's words from its first cell on, and the rest as
before. -/
theorem readWord_loadWords {m : Memory} (hm : wf m) {k : Nat} {vs : List Word}
    (h : k + vs.length ≤ Config.heapCells) (j : Nat) :
    readWord (loadWords m k vs) j =
      if k ≤ j ∧ j < k + vs.length then vs.getD (j - k) 0 else readWord m j := by
  induction vs generalizing m k with
  | nil => simp [loadWords]
  | cons v vs ih =>
    simp only [List.length_cons] at h ⊢
    rw [loadWords, ih (wf_writeWord hm (by omega) v) (by omega),
      readWord_writeWord hm (by omega)]
    by_cases h1 : k = j
    · subst h1
      rw [if_neg (by omega), if_pos rfl, if_pos (by omega)]
      simp
    · by_cases h2 : k + 1 ≤ j ∧ j < k + 1 + vs.length
      · rw [if_pos h2, if_pos (by omega)]
        obtain ⟨n, hn⟩ : ∃ n, j = k + 1 + n := ⟨j - (k + 1), by omega⟩
        subst hn
        rw [show k + 1 + n - k = n + 1 by omega, show k + 1 + n - (k + 1) = n by omega]
        simp
      · rw [if_neg h2, if_neg h1, if_neg (by omega)]

/-- Any list of cells is brought into canonical form. -/
theorem wf_canonical (cells : List Host.Cell) : wf (canonical cells) := by
  induction cells with
  | nil => exact wf_nil
  | cons c cells ih =>
    obtain ⟨a, v⟩ := c
    unfold canonical
    split
    · exact wf_writeByte ih ‹_› v
    · exact ih

/-- The canonical form reads as the cells did, inside the heap. -/
theorem readByte_canonical (cells : List Host.Cell) {a : Nat} (ha : a < Config.heapBytes) :
    readByte (canonical cells) a = readByte cells a := by
  induction cells with
  | nil => rfl
  | cons c cells ih =>
    obtain ⟨k, v⟩ := c
    unfold canonical
    rw [readByte_cons]
    split
    · rw [readByte_writeByte (wf_canonical cells), ih]
    · rw [ih, if_neg (by simp at *; omega)]

/-- Writing below every listed address puts the entry first. -/
theorem writeByte_of_lt {m : Memory} {a : Nat} {v : Byte} (h : ∀ p ∈ m, a < p.1)
    (hv : v ≠ unlisted) : writeByte m a v = (a, v) :: m := by
  cases m with
  | nil => exact if_neg hv
  | cons c m =>
    have h' : a < c.1 := h c List.mem_cons_self
    rw [writeByte, if_pos h', if_neg hv]

/-- A canonical heap is its own canonical form. -/
theorem canonical_of_wf {m : Memory} (hm : wf m) : canonical m = m := by
  induction m with
  | nil => rfl
  | cons c m ih =>
    obtain ⟨k, v⟩ := c
    obtain ⟨hk, hv, hlt, hm'⟩ := wf_cons.1 hm
    unfold canonical
    rw [if_pos hk, ih hm', writeByte_of_lt hlt hv]

/-- Equal readings are equal heaps. -/
theorem eq_of_readByte {m n : Memory} (hm : wf m) (hn : wf n)
    (h : ∀ a, readByte m a = readByte n a) : m = n := by
  induction m generalizing n with
  | nil =>
    cases n with
    | nil => rfl
    | cons c n =>
      obtain ⟨k, v⟩ := c
      have hv := h k
      simp at hv
      exact absurd hv.symm (wf_cons.1 hn).2.1
  | cons c m ih =>
    obtain ⟨k, v⟩ := c
    obtain ⟨-, hv, hlt, hm'⟩ := wf_cons.1 hm
    cases n with
    | nil =>
      have h' := h k
      simp at h'
      exact absurd h' hv
    | cons d n =>
      obtain ⟨j, w⟩ := d
      obtain ⟨-, hw, hlt', hn'⟩ := wf_cons.1 hn
      have hkj : k = j := by
        rcases Nat.lt_trichotomy k j with c | c | c
        · have h' := h k
          rw [readByte_cons, if_pos rfl, readByte_cons, if_neg (by omega),
            readByte_of_lt fun p hp => by have := hlt' p hp; omega] at h'
          exact absurd h' hv
        · exact c
        · have h' := h j
          rw [readByte_cons, if_neg (by omega),
            readByte_of_lt fun p hp => by have := hlt p hp; omega,
            readByte_cons, if_pos rfl] at h'
          exact absurd h'.symm hw
      subst hkj
      have hvw : v = w := by simpa using h k
      subst hvw
      congr 1
      refine ih hm' hn' fun a => ?_
      by_cases ha : k = a
      · subst ha
        rw [readByte_of_lt hlt, readByte_of_lt hlt']
      · simpa [ha] using h a

end Sys2Proof.Machine.Memory

namespace Sys2Proof.Machine

/-- The heap after reset is canonical. -/
theorem reset_heap_wf : State.reset.heap.wf := Memory.wf_nil

/-- Resetting with an image that fits gives a canonical heap. -/
theorem resetWith_heap_wf {image : List Word} (h : image.length ≤ Config.heapCells)
    (preload : List Byte) (s : State) : (resetWith image preload s).heap.wf :=
  Memory.wf_loadWords Memory.wf_nil (by simpa using h)

/-- Loading any snapshot gives a canonical heap. -/
theorem load_heap_wf (s : State) (snap : Snapshot) : (s.load snap).heap.wf :=
  Memory.wf_canonical _

/-- A store inside the heap keeps it canonical. -/
theorem memWrite_heap_wf {s : State} (hs : s.heap.wf) {k : Nat} (hk : k < Config.heapCells)
    (v : Word) : (s.memWrite k v).heap.wf :=
  Memory.wf_writeWord hs hk v

end Sys2Proof.Machine
end

