-- ==== Sys2Proof/Laws/PerInstr.lean ====
section
/-! SUPPORT. Statements about every instruction as syntax, one lemma per constructor. -/

namespace Sys2Proof.Laws.EncodeShape

/-- The words of an instruction are its opcode word, which is one of 0 to 21, and its operand words,
one to four words in all (30_encoding.md R50, R52). -/
def Statement (i : Instr) : Prop :=
  (encode i).length = 1 + i.mnemonic.arity ∧ (encode i).length ≤ Config.maxLen ∧
    (∃ op : Word, (encode i).head? = some op ∧ op.toNat < Config.nopcode) ∧
    (encode i).tail = i.operands

/-- The four clauses, from facts about the mnemonic alone. -/
theorem of_mnemonic {i : Instr} (h : i.operands.length = i.mnemonic.arity)
    (hm : (decide (1 + i.mnemonic.arity ≤ 4) && decide (i.mnemonic.opcode.toNat < 22)) = true) :
    Statement i := by
  obtain ⟨h4, h22⟩ : 1 + i.mnemonic.arity ≤ 4 ∧ i.mnemonic.opcode.toNat < 22 := by simpa using hm
  refine ⟨?_, ?_, ⟨_, rfl, h22⟩, rfl⟩
  · show i.operands.length + 1 = _
    omega
  · show i.operands.length + 1 ≤ 4
    omega

theorem halt : Statement .halt := of_mnemonic rfl rfl

theorem set (a b : Word) : Statement (.set a b) := of_mnemonic rfl rfl

theorem push (a : Word) : Statement (.push a) := of_mnemonic rfl rfl

theorem pop (a : Word) : Statement (.pop a) := of_mnemonic rfl rfl

theorem eq (a b c : Word) : Statement (.eq a b c) := of_mnemonic rfl rfl

theorem gt (a b c : Word) : Statement (.gt a b c) := of_mnemonic rfl rfl

theorem jmp (a : Word) : Statement (.jmp a) := of_mnemonic rfl rfl

theorem jt (a b : Word) : Statement (.jt a b) := of_mnemonic rfl rfl

theorem jf (a b : Word) : Statement (.jf a b) := of_mnemonic rfl rfl

theorem add (a b c : Word) : Statement (.add a b c) := of_mnemonic rfl rfl

theorem mult (a b c : Word) : Statement (.mult a b c) := of_mnemonic rfl rfl

theorem mod (a b c : Word) : Statement (.mod a b c) := of_mnemonic rfl rfl

theorem and (a b c : Word) : Statement (.and a b c) := of_mnemonic rfl rfl

theorem or (a b c : Word) : Statement (.or a b c) := of_mnemonic rfl rfl

theorem not (a b : Word) : Statement (.not a b) := of_mnemonic rfl rfl

theorem rmem (a b : Word) : Statement (.rmem a b) := of_mnemonic rfl rfl

theorem wmem (a b : Word) : Statement (.wmem a b) := of_mnemonic rfl rfl

theorem call (a : Word) : Statement (.call a) := of_mnemonic rfl rfl

theorem ret : Statement .ret := of_mnemonic rfl rfl

theorem out (a : Word) : Statement (.out a) := of_mnemonic rfl rfl

theorem inp (a : Word) : Statement (.inp a) := of_mnemonic rfl rfl

theorem noop : Statement .noop := of_mnemonic rfl rfl

end Sys2Proof.Laws.EncodeShape
end

