-- ==== Sys2Proof/Tests/Slice0.lean ====
section
/-! SUPPORT. Tests: decoding of words written out from the encodings of 30_encoding.md R52,
well-formedness smoke tests, one-step tests whose expected results are the vectors V<n> of
95_test_vectors.md (R = 32768), and for each statement with hypotheses a witness of them. -/

namespace Sys2Proof.Tests

open Sys2Proof Sys2Proof.Machine Sys2Proof.Claims

/-! ### Helpers -/

/-- The reset state with words loaded at heap index 0 (95_test_vectors.md). -/
def prog (ws : List Word) : State := { State.reset with heap := Memory.loadWords [] 0 ws }

/-- The same with words loaded at index k and pc there. -/
def progAt (k : Nat) (ws : List Word) : State :=
  { State.reset with heap := Memory.loadWords [] k ws, pc := BitVec.ofNat 16 k }

/-- Register i set to v. -/
def withReg (i : Fin 8) (v : Word) (s : State) : State := s.setReg i v

/-- One field of the state after one step. -/
def after {α : Type} (f : State → α) (s : State) : Option α :=
  match step s with
  | .next t => some (f t)
  | .fault _ => none
  | .refused _ => none

/-- Cause and info of the trap of a state. -/
def cause (s : State) : Option (TrapCause × Option Word) := s.trap.map fun r => (r.cause, r.info)

/-! ### Decoding: each row's words, bit by bit (the opcode word is the row's number, R50) -/

theorem test_decode_halt : decode [0b0000000000000000#16, 7, 7, 7] = .ok .halt := by decide
theorem test_decode_set : decode [0b0000000000000001#16, 32768, 5, 77] = .ok (.set 32768 5) := by
  decide
theorem test_decode_push : decode [0b0000000000000010#16, 300, 0, 0] = .ok (.push 300) := by decide
theorem test_decode_pop : decode [0b0000000000000011#16, 32769, 0, 0] = .ok (.pop 32769) := by
  decide
theorem test_decode_eq :
    decode [0b0000000000000100#16, 32768, 32769, 4] = .ok (.eq 32768 32769 4) := by decide
theorem test_decode_gt : decode [0b0000000000000101#16, 32768, 5, 3] = .ok (.gt 32768 5 3) := by
  decide
theorem test_decode_jmp : decode [0b0000000000000110#16, 100, 0, 0] = .ok (.jmp 100) := by decide
theorem test_decode_jt : decode [0b0000000000000111#16, 32768, 3, 0] = .ok (.jt 32768 3) := by
  decide
theorem test_decode_jf : decode [0b0000000000001000#16, 32768, 20, 0] = .ok (.jf 32768 20) := by
  decide
theorem test_decode_add :
    decode [0b0000000000001001#16, 32768, 32769, 4] = .ok (.add 32768 32769 4) := by decide
theorem test_decode_mult :
    decode [0b0000000000001010#16, 32768, 1234, 5678] = .ok (.mult 32768 1234 5678) := by decide
theorem test_decode_mod :
    decode [0b0000000000001011#16, 32768, 100, 7] = .ok (.mod 32768 100 7) := by decide
theorem test_decode_and :
    decode [0b0000000000001100#16, 32768, 32527, 4080] = .ok (.and 32768 32527 4080) := by decide
theorem test_decode_or :
    decode [0b0000000000001101#16, 32768, 32527, 4080] = .ok (.or 32768 32527 4080) := by decide
theorem test_decode_not :
    decode [0b0000000000001110#16, 32768, 21845, 0] = .ok (.not 32768 21845) := by decide
theorem test_decode_rmem : decode [0b0000000000001111#16, 32768, 5, 0] = .ok (.rmem 32768 5) := by
  decide
theorem test_decode_wmem : decode [0b0000000000010000#16, 5, 73, 0] = .ok (.wmem 5 73) := by decide
theorem test_decode_call : decode [0b0000000000010001#16, 6, 0, 0] = .ok (.call 6) := by decide
theorem test_decode_ret : decode [0b0000000000010010#16, 1, 2, 3] = .ok .ret := by decide
theorem test_decode_out : decode [0b0000000000010011#16, 65, 0, 0] = .ok (.out 65) := by decide
theorem test_decode_in : decode [0b0000000000010100#16, 32768, 0, 0] = .ok (.inp 32768) := by decide
theorem test_decode_noop : decode [0b0000000000010101#16, 0, 0, 0] = .ok .noop := by decide

/-- V21, V22, V24, V26, V27, V29: the decoder's refusals. -/
theorem test_decode_errors :
    decode [22, 0, 0, 0] = .error (.invalid 22) ∧ decode [65535, 0, 0, 0] = .error (.invalid 65535) ∧
      decode [19] = .error (.parameterMissing 19) ∧
      decode [1, 32768] = .error (.parameterMissing 1) ∧
      decode [9, 32768, 1] = .error (.parameterMissing 9) ∧ decode [] = .error .empty := by decide

/-- The table's numbering: the first word lowest, operand words of zeros above nbits. -/
theorem test_table_words :
    decodeTableWord 16 9 = some (.add 0 0 0) ∧
      decodeTableWord 64 (9 + 32768 * 2 ^ 16 + 32769 * 2 ^ 32 + 4 * 2 ^ 48) =
        some (.add 32768 32769 4) ∧
      decodeTableWord 16 22 = none := by decide

/-- Each row of the table, as the first instruction after reset, is what the step fetches. -/
theorem test_withFetchWord_fetches :
    (List.range 22).all
      (fun op => decode (fetch (State.reset.withFetchWord 16 op)) == decode [BitVec.ofNat 16 op, 0, 0, 0])
      = true := by decide

/-! ### Well-formedness: an ill-formed term for each check -/

theorem test_wellFormed_literal_destination : (Instr.set 5 7).wellFormed = false := by decide
theorem test_wellFormed_high_destination : (Instr.pop 32776).wellFormed = false := by decide
theorem test_wellFormed_first_source : (Instr.jmp 32776).wellFormed = false := by decide
theorem test_wellFormed_second_source : (Instr.wmem 0 40000).wellFormed = false := by decide
theorem test_wellFormed_source_b : (Instr.add 32768 65535 1).wellFormed = false := by decide
theorem test_wellFormed_source_c : (Instr.add 32768 1 65535).wellFormed = false := by decide
theorem test_wellFormed_accepts :
    (Instr.add 32775 32775 32767).wellFormed = true ∧ Instr.ret.wellFormed = true := by decide

/-! ### Operands (V1 to V11) -/

/-- The registers of V4: each names the next, the last holds 99. -/
def chain (last : Word) : RegFile :=
  #v[32769, 32770, 32771, 32772, 32773, 32774, 32775, last]

theorem test_resolve_literal_and_invalid :
    resolve State.reset.x 32767 = .ok 32767 ∧
      resolve State.reset.x 32776 = .error (.raise .addressingViolation (some 32776)) := by decide
theorem test_resolve_chain :
    resolve (chain 99) 32768 = .ok 99 ∧
      resolve (chain 32768) 32768 = .error (.raise .registerCycle (some 32768)) ∧
      resolve (chain 40000) 32775 = .error (.raise .addressingViolation (some 40000)) := by decide
theorem test_regWrite_bad_address :
    regWrite 5 1 State.reset = .error (.raise .addressingViolation (some 5)) ∧
      regWrite 32768 40000 State.reset = .error (.raise .addressingViolation (some 40000)) := by
  decide
theorem test_rawRead :
    rawRead 12 (progAt 12 [7]) = .ok 7 ∧
      rawRead 32769 (withReg 1 12 State.reset) = .ok 12 ∧
      rawRead 32776 State.reset = .error (.raise .addressingViolation (some 32776)) := by decide

/-! ### One step of each instruction -/

/-- V40 -/
theorem test_set : after (fun t => (t.reg 7, t.pc, t.cycle)) (prog [1, 32775, 32767])
    = some (32767, 3, 1) := by decide
/-- V42 -/
theorem test_set_literal_destination :
    after (fun t => (cause t, t.pc, t.cycle)) (prog [1, 5, 7])
      = some (some (.addressingViolation, some 5), 0, 0) := by decide
/-- V44 -/
theorem test_push : after (fun t => (t.stack, t.pc)) (withReg 0 72 (prog [2, 32768]))
    = some ([72], 2) := by decide
/-- V45 -/
theorem test_push_bad : after (fun t => (cause t, t.stack)) (prog [2, 40000])
    = some (some (.addressingViolation, some 40000), []) := by decide
/-- V46 -/
theorem test_pop : after (fun t => (t.reg 1, t.stack, t.pc)) { prog [3, 32769] with stack := [2, 72] }
    = some (72, [2], 2) := by decide
/-- V49 -/
theorem test_pop_resolves : after (fun t => (t.reg 1, t.stack))
    (withReg 0 77 { prog [3, 32769] with stack := [32768] }) = some (77, []) := by decide
/-- V60 -/
theorem test_eq : after (fun t => (t.reg 0, t.pc)) (withReg 1 4 (prog [4, 32768, 32769, 4]))
    = some (1, 4) := by decide
/-- V61 -/
theorem test_eq_differs : after (State.reg · 0) (withReg 1 3 (prog [4, 32768, 32769, 4]))
    = some 0 := by decide
/-- V66 -/
theorem test_gt : after (State.reg · 0) (prog [5, 32768, 32767, 0]) = some 1 := by decide
/-- V65 -/
theorem test_gt_equal : after (State.reg · 0) (withReg 0 9 (prog [5, 32768, 5, 5])) = some 0 := by
  decide
/-- V71, with pc = 0 -/
theorem test_jmp : after State.pc (withReg 2 55 (prog [6, 32770])) = some 55 := by decide
/-- V72 -/
theorem test_jmp_bad : after (fun t => (cause t, t.pc)) (prog [6, 32776])
    = some (some (.addressingViolation, some 32776), 0) := by decide
/-- V73 -/
theorem test_jt : after State.pc (withReg 0 2 (progAt 11 [7, 32768, 3])) = some 3 := by decide
/-- V77 -/
theorem test_jt_untaken_bad_target : after (fun t => (t.pc, cause t)) (prog [7, 0, 40000])
    = some (3, none) := by decide
/-- V75 -/
theorem test_jf : after State.pc (progAt 4 [8, 32768, 20]) = some 20 := by decide
/-- V76 -/
theorem test_jf_untaken : after State.pc (withReg 0 7 (progAt 4 [8, 32768, 20])) = some 7 := by
  decide
/-- V80 -/
theorem test_add_wraps : after (fun t => (t.reg 0, t.pc)) (prog [9, 32768, 32767, 2])
    = some (1, 4) := by decide
/-- V83 -/
theorem test_add_source_is_destination :
    after (State.reg · 0) (withReg 0 10 (prog [9, 32768, 32768, 32767])) = some 9 := by decide
/-- V86 -/
theorem test_mult_wraps : after (State.reg · 0) (prog [10, 32768, 32767, 32767]) = some 1 := by
  decide
/-- V85 -/
theorem test_mult : after (State.reg · 0) (prog [10, 32768, 1234, 5678]) = some 27068 := by decide
/-- V89 -/
theorem test_mod : after (State.reg · 0) (prog [11, 32768, 100, 7]) = some 2 := by decide
/-- P5: MOD r0 5 r1 with r1 = 0, the whole record -/
theorem test_mod_zero : after State.trap (prog [11, 32768, 5, 32769])
    = some (some ⟨.arithmeticError, 0, some 11, [32768, 5, 32769], none⟩) := by decide
/-- V94 -/
theorem test_and : after (State.reg · 0) (prog [12, 32768, 32527, 4080]) = some 3840 := by decide
/-- V96 -/
theorem test_and_resolved : after (State.reg · 0) (withReg 1 5 (prog [12, 32768, 32769, 32767]))
    = some 5 := by decide
/-- V95 -/
theorem test_or : after (State.reg · 0) (prog [13, 32768, 32527, 4080]) = some 32767 := by decide
/-- V97, V99 -/
theorem test_not : after (State.reg · 0) (prog [14, 32768, 0]) = some 32767 ∧
    after (fun t => (t.reg 0, t.pc)) (prog [14, 32768, 21845]) = some (10922, 3) := by decide
/-- V113 -/
theorem test_rmem_resolves : after (State.reg · 0)
    (withReg 1 123 (prog [15, 32768, 10, 0, 0, 0, 0, 0, 0, 0, 32769])) = some 123 := by decide
/-- V114 -/
theorem test_rmem_high_word : after cause (prog [15, 32768, 10, 0, 0, 0, 0, 0, 0, 0, 40000])
    = some (some (.addressingViolation, some 40000)) := by decide
/-- V117 -/
theorem test_wmem : after (fun t => (memRead t 200, t.reg 1, t.pc))
    (withReg 0 65 (withReg 1 200 (prog [16, 32769, 32768]))) = some (65, 200, 3) := by decide
/-- V118: a WMEM over its own words completes; writing keeps the heap canonical -/
theorem test_wmem_own_word : after (fun t => (memRead t 0, memRead t 1, t.pc, decide t.heap.wf))
    (prog [16, 0, 21]) = some (21, 0, 3, true) := by decide
/-- V120 -/
theorem test_call : after (fun t => (t.stack, t.pc)) (prog [17, 6]) = some ([2], 6) := by decide
/-- V121 -/
theorem test_call_top_of_heap : after (fun t => (t.stack, t.pc)) (progAt 32766 [17, 10])
    = some ([32768], 10) := by decide
/-- V124 -/
theorem test_ret : after (fun t => (t.stack, t.pc, t.cycle)) { prog [18] with stack := [32768] }
    = some ([], 32768, 1) := by decide
/-- V123 -/
theorem test_ret_empty : after (fun t => (cause t, t.pc)) (progAt 9 [18])
    = some (some (.stackUnderflow, none), 9) := by decide
/-- V131, V132 -/
theorem test_out : after State.out (prog [19, 321]) = some [65] ∧
    after State.out (prog [19, 32767]) = some [255] := by decide
/-- V133 -/
theorem test_in : after (fun t => (t.reg 0, t.inbuf, t.hist, t.pc, t.cycle))
    { prog [20, 32768] with inbuf := [65, 10] } = some (65, [10], [65], 2, 1) := by decide
/-- V134, V135 -/
theorem test_in_stalls_or_traps :
    after (fun t => (t.pc, t.cycle, cause t)) (prog [20, 32768]) = some (0, 0, none) ∧
      after cause (prog [20, 5]) = some (some (.addressingViolation, some 5)) := by decide
/-- V23 -/
theorem test_noop_last_cell : after (fun t => (t.pc, t.cycle)) (progAt 32767 [21])
    = some (32768, 1) := by decide
/-- V137 -/
theorem test_halt : after (fun t => (t.halted, t.pc, t.cycle)) { progAt 6 [0] with cycle := 2 }
    = some (true, 6, 3) := by decide

/-! ### The run loop and the host (V24, V29, V138 to V144) -/

theorem test_fetch_traps :
    after cause (progAt 32767 [19]) = some (some (.decodeParameterMissing, some 19)) ∧
      after cause { State.reset with pc := 32768 } = some (some (.decodeEmpty, none)) ∧
      after cause (prog [200]) = some (some (.decodeInvalid, some 200)) := by decide
theorem test_reset_runs_halt : after (fun t => (t.halted, t.pc, t.cycle)) State.reset
    = some (true, 0, 1) := by decide
theorem test_paused_holds : after (fun t => (t.pc, t.cycle)) { prog [21, 21, 0] with paused := true }
    = some (0, 0) := by decide
theorem test_step_once : after (fun t => (t.pc, t.cycle, t.stepOnce, t.paused))
    { prog [21, 21, 0] with paused := true, stepOnce := true } = some (1, 1, false, true) := by decide
theorem test_set_register_while_halted : after (fun t => (t.reg 0, t.cycle))
    { prog [0] with halted := true, cycle := 1, agenda := [.event (.setRegister 0 5)] }
      = some (5, 1) := by decide
theorem test_trapped_drops_event : after (fun t => (t.reg 0, t.agenda))
    { prog [0] with trap := some ⟨.stackUnderflow, 0, some 18, [], none⟩,
                    agenda := [.event (.setRegister 0 5)] } = some (0, []) := by decide

/-! ### Witnesses: states and operands that meet the hypotheses of each statement, one per clause,
at the ends of its range -/

/-- A word whose resolution raises does not resolve. -/
theorem unresolved_of_error {x : RegFile} {V : Word} {e : Stop} (h : resolve x V = .error e) :
    Unresolved x V := fun W hW => by rw [h] at hW; cases hW

/-- 32776 never resolves. -/
theorem unresolved_32776 (x : RegFile) : Unresolved x 32776 := unresolved_of_error (e :=
  .raise .addressingViolation (some 32776)) rfl

/-- A state with something in every kind of state. -/
def rich : State :=
  { withReg 7 32767 (withReg 1 12 (prog [21, 19, 65, 0, 40000, 32769])) with
    stack := [32768, 7], out := [1], inbuf := [255, 10], hist := [2], cycle := 41 }

/-- A trapped state. -/
def dead : State := { rich with trap := some ⟨.arithmeticError, 0, some 11, [], none⟩ }

theorem witness_HeapWriteChangesOneCell :
    rich.heap.wf ∧ (0 : Nat) < 32768 ∧ (32767 : Nat) < 32768 ∧ (32766 : Nat) ≠ 32767 := by decide

theorem witness_RawAccessIsUnresolved :
    (32767 : Word).toNat < 32768 ∧ (32768 : Word) = regWord 0 ∧ (32775 : Word) = regWord 7 ∧
      32776 ≤ (32776 : Word).toNat ∧ 32776 ≤ (65535 : Word).toNat := by decide

theorem witness_ResolveFollowsTheAliasChain :
    aliasChain (chain 99) 32768 8 = some 99 ∧ aliasChain (chain 40000) 32768 8 = some 40000 ∧
      aliasChain (chain 32775) 32768 8 = some (regWord 7) ∧
      aliasChain (chain 0) 32767 0 = some 32767 ∧ aliasChain (chain 0) 32776 0 = some 32776 := by
  decide

/-- Both sides of the equivalence hold of a register that names itself. -/
theorem witness_RegisterCycleExactlyOnCyclicChains :
    (∃ W : Word, resolve (chain 32775) 32768 = .error (.raise .registerCycle (some W))) :=
  ⟨32775, by decide⟩

theorem witness_RegWriteStoresAResolvedLiteral :
    destOk 32767 = false ∧ destOk 32776 = false ∧ (32768 : Word) = regWord 0 ∧
      (32775 : Word) = regWord 7 ∧ resolve rich.x 32775 = .ok 32767 ∧
      resolve rich.x 40000 = .error (.raise .addressingViolation (some 40000)) := by decide

/-- For the statements over TwoSourceRule (ADD, MULT, AND, OR, EQ, GT) and for MOD: both ends of the
source range, the destination at both ends, and each alternative of the trap clause. -/
theorem witness_TwoSourceRule :
    (32768 : Word) = regWord 0 ∧ (32775 : Word) = regWord 7 ∧ resolve rich.x 32775 = .ok 32767 ∧
      resolve rich.x 0 = .ok 0 ∧ destOk 5 = false ∧ Unresolved rich.x 32776 :=
  ⟨rfl, rfl, rfl, rfl, rfl, unresolved_32776 _⟩

theorem witness_ModWritesRemainderOrTraps :
    resolve rich.x 100 = .ok 100 ∧ resolve rich.x 1 = .ok 1 ∧ (1 : Word).toNat ≠ 0 ∧
      resolve rich.x 32768 = .ok 0 ∧ (0 : Word).toNat = 0 := by decide

/-- For SET and NOT. -/
theorem witness_oneSource :
    (32775 : Word) = regWord 7 ∧ resolve rich.x 32769 = .ok 12 ∧ resolve rich.x 32767 = .ok 32767 ∧
      destOk 32776 = false ∧ Unresolved rich.x 32776 :=
  ⟨rfl, rfl, rfl, rfl, unresolved_32776 _⟩

/-- For PUSH, JMP, CALL and OUT. -/
theorem witness_sourceOnly :
    resolve rich.x 0 = .ok 0 ∧ resolve rich.x 32775 = .ok 32767 ∧ Unresolved rich.x 32776 :=
  ⟨rfl, rfl, unresolved_32776 _⟩

theorem witness_PopWritesResolvedTop :
    (32768 : Word) = regWord 0 ∧ rich.stack = [32768] ++ [7] ∧ resolve rich.x 7 = .ok 7 ∧
      destOk 32768 = true ∧ State.reset.stack = [] ∧ destOk 5 = false ∧
      ({ rich with stack := [32776] } : State).stack = [] ++ [32776] ∧ Unresolved rich.x 32776 :=
  ⟨rfl, rfl, rfl, rfl, rfl, rfl, rfl, unresolved_32776 _⟩

theorem witness_ConditionalJumpsTestResolvedOperand :
    resolve rich.x 32769 = .ok 12 ∧ (12 : Word).toNat ≠ 0 ∧ resolve rich.x 32768 = .ok 0 ∧
      (0 : Word).toNat = 0 ∧ resolve rich.x 32767 = .ok 32767 ∧ Unresolved rich.x 32776 :=
  ⟨rfl, by decide, rfl, rfl, rfl, unresolved_32776 _⟩

theorem witness_ConditionalJumpsTrapOnBadCondition : Unresolved rich.x 32776 := unresolved_32776 _

/-- Cell 5 of `rich` holds the register reference 32769, cell 4 the invalid word 40000. -/
theorem witness_RmemWritesResolvedHeapWord :
    (32768 : Word) = regWord 0 ∧ resolve rich.x 5 = .ok 5 ∧
      resolve rich.x (memRead rich (5 : Word).toNat) = .ok 12 ∧ destOk 5 = false ∧
      Unresolved rich.x 32776 ∧
      (∃ B : Word, resolve rich.x 4 = .ok B ∧ Unresolved rich.x (memRead rich B.toNat)) :=
  ⟨rfl, rfl, by decide, rfl, unresolved_32776 _, 4, rfl, unresolved_of_error
    (e := .raise .addressingViolation (some 40000)) (by decide)⟩

theorem witness_WmemStoresOneHeapCell :
    rich.heap.wf ∧ resolve rich.x 32775 = .ok 32767 ∧ resolve rich.x 0 = .ok 0 ∧
      Unresolved rich.x 32776 :=
  ⟨by decide, rfl, rfl, unresolved_32776 _⟩

theorem witness_RetLoadsPoppedWord :
    rich.stack = [32768] ++ [7] ∧ State.reset.stack = [] := by decide

theorem witness_InConsumesOneItemOrStalls :
    (32775 : Word) = regWord 7 ∧ rich.inbuf = 255 :: [10] ∧ destOk 32775 = true ∧
      State.reset.inbuf = [] ∧ destOk 32767 = false ∧ destOk 32776 = false := by decide

theorem witness_RegisterWritersFrame :
    (∃ t, exec (.set 32768 5) rich = .next t) ∧ (∃ t, exec (.eq 32768 5 5) rich = .next t) ∧
      (∃ t, exec (.gt 32768 5 5) rich = .next t) ∧ (∃ t, exec (.add 32768 5 5) rich = .next t) ∧
      (∃ t, exec (.mult 32768 5 5) rich = .next t) ∧ (∃ t, exec (.mod 32768 5 5) rich = .next t) ∧
      (∃ t, exec (.and 32768 5 5) rich = .next t) ∧ (∃ t, exec (.or 32768 5 5) rich = .next t) ∧
      (∃ t, exec (.not 32775 5) rich = .next t) ∧ (∃ t, exec (.rmem 32775 5) rich = .next t) ∧
      (32768 : Word) ≠ regWord 7 :=
  ⟨⟨_, rfl⟩, ⟨_, rfl⟩, ⟨_, rfl⟩, ⟨_, rfl⟩, ⟨_, rfl⟩, ⟨_, rfl⟩, ⟨_, rfl⟩, ⟨_, rfl⟩, ⟨_, rfl⟩,
    ⟨_, rfl⟩, by decide⟩

theorem witness_StackInstructionsFrame :
    (∃ t, exec (.push 5) rich = .next t) ∧ (∃ t, exec (.pop 32768) rich = .next t) ∧
      (∃ t, exec (.call 5) rich = .next t) ∧ (∃ t, exec .ret rich = .next t) :=
  ⟨⟨_, rfl⟩, ⟨_, rfl⟩, ⟨_, rfl⟩, ⟨_, rfl⟩⟩

theorem witness_JumpsNoopHaltFrame :
    (∃ t, exec (.jmp 5) rich = .next t) ∧ (∃ t, exec (.jt 1 5) rich = .next t) ∧
      (∃ t, exec (.jf 1 5) rich = .next t) ∧ (∃ t, exec .noop rich = .next t) ∧
      (∃ t, exec .halt rich = .next t) :=
  ⟨⟨_, rfl⟩, ⟨_, rfl⟩, ⟨_, rfl⟩, ⟨_, rfl⟩, ⟨_, rfl⟩⟩

theorem witness_WmemFrame :
    rich.heap.wf ∧ (∃ t, exec (.wmem 32767 5) rich = .next t) ∧ resolve rich.x 32767 = .ok 32767 ∧
      (∃ t, exec (.wmem 32776 5) rich = .next t) ∧ Unresolved rich.x 32776 :=
  ⟨by decide, ⟨_, rfl⟩, rfl, ⟨_, rfl⟩, unresolved_32776 _⟩

theorem witness_StreamInstructionsFrame :
    (∃ t, exec (.out 5) rich = .next t) ∧ (∃ t, exec (.inp 32768) rich = .next t) :=
  ⟨⟨_, rfl⟩, ⟨_, rfl⟩⟩

theorem witness_DecodeEncodeRoundTrip : decode [9, 32768, 32769, 4] = .ok (.add 32768 32769 4) := by
  decide

theorem witness_StoredInstructionIsFetched :
    rich.heap.wf ∧ (32764 : Word).toNat + (Instr.add 1 2 3).mnemonic.len ≤ 32768 ∧
      (32767 : Word).toNat + Instr.ret.mnemonic.len ≤ 32768 := by decide

theorem witness_StepRunsTheDecodedInstruction :
    rich.agenda = [] ∧ rich.trap = none ∧ rich.halted = false ∧ rich.paused = false ∧
      decode (fetch rich) = .ok .noop ∧
      ({ rich with agenda := [.cycle, .event .observe] } : State).agenda
        = .cycle :: [.event .observe] ∧
      decode (fetch { rich with pc := 32768 }) = .error .empty ∧ dead.trap ≠ none ∧
      ({ rich with paused := true, stepOnce := true } : State).stepOnce = true := by decide

theorem witness_FetchTrapsAtTheEndOfTheHeap :
    (progAt 32768 []).agenda = [] ∧ (progAt 32768 []).runnable = true ∧
      32768 ≤ (progAt 32768 []).pc.toNat ∧ 32768 ≤ ({ rich with pc := 65535 } : State).pc.toNat ∧
      (progAt 32767 [22]).pc.toNat < 32768 ∧ 22 ≤ (memRead (progAt 32767 [22]) 32767).toNat ∧
      memRead (progAt 32767 [19]) 32767 = Mnemonic.out.opcode ∧
      32768 < (progAt 32767 [19]).pc.toNat + Mnemonic.out.len ∧
      memRead (progAt 32765 [9, 1, 2]) 32765 = Mnemonic.add.opcode ∧
      32768 < (progAt 32765 [9, 1, 2]).pc.toNat + Mnemonic.add.len := by decide

theorem witness_TrapsArePrecise :
    rich.trap = none ∧ (∃ t, exec (.mod 32768 5 0) rich = .next t ∧ t.trap ≠ none) ∧
      rich.pc.toNat < 32768 ∧ 32768 ≤ ({ rich with pc := 32768 } : State).pc.toNat ∧
      (∃ t, exec (.pop 5) { rich with pc := 32768 } = .next t ∧ t.trap ≠ none) :=
  ⟨rfl, ⟨_, rfl, fun h => by cases h⟩, by decide, by decide, ⟨_, rfl, fun h => by cases h⟩⟩

theorem witness_TrapOrderWithinOneInstruction :
    (Instr.mod 5 0 0).dest? = some 5 ∧ destOk 5 = false ∧ destOk 32768 = true ∧
      Instr.mod 32768 40000 0 ∈ [Instr.eq 32768 40000 0, .gt 32768 40000 0, .add 32768 40000 0,
        .mult 32768 40000 0, .mod 32768 40000 0, .and 32768 40000 0, .or 32768 40000 0] ∧
      SourceFault rich.x 40000 .addressingViolation (some 40000) ∧
      SourceFault (chain 32775) 32768 .registerCycle (some 32775) ∧ resolve rich.x 4 = .ok 4 ∧
      SourceFault rich.x (memRead rich 4) .addressingViolation (some 40000) ∧
      Instr.wmem 40000 50000 ∈ [Instr.jt 40000 50000, .jf 40000 50000, .wmem 40000 50000] := by
  refine ⟨rfl, rfl, rfl, by decide, rfl, ?_, rfl, ?_, by decide⟩
  · show resolve _ _ = _
    decide
  · show resolve _ _ = _
    decide

theorem witness_TrapCausesPerInstruction :
    rich.trap = none ∧
      (∃ t r, exec (.mod 32768 5 0) rich = .next t ∧ t.trap = some r ∧
        r.cause = .arithmeticError) ∧
      (∃ t r, exec .ret { rich with stack := [] } = .next t ∧ t.trap = some r ∧
        r.cause = .stackUnderflow) ∧
      (∃ t r, exec (.inp 5) rich = .next t ∧ t.trap = some r) :=
  ⟨rfl, ⟨_, _, rfl, rfl, rfl⟩, ⟨_, _, rfl, rfl, rfl⟩, ⟨_, _, rfl, rfl⟩⟩

theorem witness_TrappedCoreAcceptsOnlyReset :
    dead.trap ≠ none ∧ dead.agenda = [] ∧
      ({ dead with agenda := [.cycle] } : State).agenda = .cycle :: [] ∧
      (∀ image preload, HostEvent.togglePause ≠ .reset image preload) ∧
      (List.replicate 32768 (0 : Word)).length ≤ 32768 :=
  ⟨by decide, rfl, rfl, fun _ _ h => (by cases h), by rw [List.length_replicate]⟩

theorem witness_CoreStepCountsTrapsOrHolds :
    rich.agenda = [] ∧ rich.runnable = true ∧ ¬ rich.heldForInput ∧ dead.agenda = [] ∧
      dead.runnable = false ∧ (prog [20, 32768]).agenda = [] ∧ (prog [20, 32768]).heldForInput :=
  ⟨rfl, rfl, fun h => absurd h.2.1 (by decide), rfl, rfl, rfl, rfl, rfl, 32768, rfl, by decide⟩

theorem rich_flowBounded : rich.flowBounded := by
  refine ⟨by decide, fun v hv => ?_⟩
  have : v = 32768 ∨ v = 7 := by simpa using (show v ∈ [(32768 : Word), 7] from hv)
  rcases this with rfl | rfl <;> decide

/-- A POP with a bad destination and an empty stack meets two premises of the trap clause at once. -/
theorem witness_PopTrapsInEveryCombination :
    destOk 5 = false ∧ destOk 32776 = false ∧ ({ rich with stack := [] } : State).stack = [] := by
  decide

/-- An agenda with a set-register and no load-state, for FlowStaysBounded, and a step from it. -/
theorem witness_FlowStaysBounded :
    let s := { rich with agenda := [.event (.setRegister 7 65535), .cycle] }
    s.flowBounded ∧ s.agendaLoadsNothing ∧ ∃ t, step s = .next t :=
  ⟨rich_flowBounded, by decide, _, rfl⟩

/-- `rich` meets the invariants, with a quiet agenda too. -/
theorem witness_invariants :
    rich.heapCanonical ∧ rich.regsLiteral ∧ rich.flowBounded ∧
      ({ rich with agenda := [.event (.supplyInput [1]), .cycle] } : State).agendaQuiet :=
  ⟨by decide, by decide, rich_flowBounded, by decide⟩

/-- Steps that answer next, for the invariants: the core's, and a host event's. -/
theorem witness_steps :
    (∃ t, step rich = .next t) ∧ (∃ t, step { rich with agenda := [.event .stepOnce] } = .next t) :=
  ⟨⟨_, rfl⟩, ⟨_, rfl⟩⟩

theorem witness_OnlyWmemChangesTheHeap :
    (∃ t, exec (.rmem 32768 5) rich = .next t) ∧ ∀ a b, Instr.rmem 32768 5 ≠ .wmem a b :=
  ⟨⟨_, rfl⟩, fun _ _ h => by cases h⟩

theorem witness_StreamsAreConserved : rich.agenda = [] ∧ ∃ t, step rich = .next t :=
  ⟨rfl, _, rfl⟩

theorem witness_ProgramsCannotSeeRunControl : ∃ t, exec (.inp 32768) rich = .next t := ⟨_, rfl⟩

theorem witness_OnlyHaltSetsHalted :
    (∃ t, exec .noop rich = .next t) ∧ Instr.noop ≠ .halt ∧
      ({ rich with halted := true } : State).agenda = [] ∧
      ({ rich with halted := true } : State).halted = true :=
  ⟨⟨_, rfl⟩, by decide, rfl, rfl⟩

theorem witness_CallThenRetReturns : ∃ t, exec (.call 32767) rich = .next t ∧ t.trap = none :=
  ⟨_, rfl, rfl⟩

theorem witness_PushThenPopRoundTrips :
    resolve rich.x 32775 = .ok 32767 ∧ ∃ t, exec (.push 32775) rich = .next t := ⟨rfl, _, rfl⟩

theorem witness_HostEventsChangeWhatTheyName :
    rich.trap = none ∧
      ({ rich with agenda := [.event (.setRegister 7 65535), .cycle] } : State).agenda
        = .event (.setRegister 7 65535) :: [.cycle] ∧ 7 < 8 ∧ 8 ≤ 8 := by decide

theorem witness_ResetSetsEveryPieceOfState :
    ({ dead with agenda := [.event (.reset [0, 65535] [7])] } : State).agenda
        = .event (.reset [0, 65535] [7]) :: [] ∧
      (List.replicate 32768 (0 : Word)).length ≤ 32768 ∧
      32768 < (List.replicate 32769 (0 : Word)).length :=
  ⟨rfl, by rw [List.length_replicate], by rw [List.length_replicate]; decide⟩

theorem witness_LoadStateRestoresTheSnapshot :
    State.reset.trap = none ∧ rich.heap.wf ∧
      ({ State.reset with agenda := [.event (.loadState rich.capture)] } : State).agenda
        = .event (.loadState rich.capture) :: [] := ⟨rfl, by decide, rfl⟩

theorem witness_PlacedTableWordRuns :
    rich.heap.wf ∧ decodeTableWord 16 9 = some (.add 0 0 0) := by decide

end Sys2Proof.Tests
end

/-! ### The state (10_state.md): invariants, streams, run control and reset -/

namespace Sys2Proof.Machine

/-! ### What one step does -/

/-- The state in which a step's move acts: the move itself is off the agenda. -/
def State.afterMove (s : State) : State := { s with agenda := s.agenda.tail }

theorem State.afterMove_of_agenda_nil {s : State} (h : s.agenda = []) : s.afterMove = s := by
  rw [State.afterMove, h, List.tail_nil, ← h]

theorem step_of_agenda_nil {s : State} (h : s.agenda = []) : step s = coreCycle s := by
  rw [step, boundaryMove, h]

theorem step_of_agenda_event {s : State} {e : HostEvent} {rest : List HostMove}
    (h : s.agenda = .event e :: rest) : step s = hostEvent e { s with agenda := rest } := by
  rw [step, boundaryMove, h]

/-- A step is the core's cycle or an event of the agenda, on the state after the move. -/
theorem step_move {s t : State} (h : step s = .next t) :
    coreCycle s.afterMove = .next t ∨
      ∃ e, .event e ∈ s.agenda ∧ hostEvent e s.afterMove = .next t := by
  rcases step_cases (s := s) with ⟨ha, hstep⟩ | ⟨rest, ha, hstep⟩ | ⟨e, rest, ha, hstep⟩
  · left
    rw [State.afterMove_of_agenda_nil ha, ← hstep, h]
  · left
    rw [State.afterMove, ha, List.tail_cons, ← hstep, h]
  · right
    exact ⟨e, by simp [ha], by rw [State.afterMove, ha, List.tail_cons, ← hstep, h]⟩

/-- A cycle that answers a next state leaves the state, writes the trap record, or completes the
instruction it decoded. -/
theorem coreCycle_eq_next {s t : State} (h : coreCycle s = .next t) :
    t = s ∨ (∃ cause info ws, t = takeTrap cause info ws s) ∨
      ∃ i u, decode (fetch s) = .ok i ∧ Completes s i u ∧ t = u.count := by
  rcases coreCycle_cases s with ⟨-, hc⟩ | ⟨-, i, hd, hc⟩ | ⟨-, e, -, hc⟩
  · left
    simpa [hc] using h.symm
  · rcases exec_cases (hc ▸ h) with ⟨u, hu, rfl⟩ | ⟨cause, info, rfl⟩ | ⟨rfl, -, -⟩
    · exact .inr (.inr ⟨i, u, hd, hu, rfl⟩)
    · exact .inr (.inl ⟨cause, info, _, rfl⟩)
    · exact .inl rfl
  · right; left
    exact ⟨_, _, _, by simpa [hc, takeDecodeTrap] using h.symm⟩

/-- The rule by which a property of the next state is proved: it holds where nothing happens, where
only the trap record is written, where an instruction completes, and where an event of the agenda
acts. -/
theorem step_rule {I : State → Prop} {s t : State} (h : step s = .next t) (hs : I s.afterMove)
    (htrap : ∀ cause info ws, I (takeTrap cause info ws s.afterMove))
    (hcomplete : ∀ i u, decode (fetch s.afterMove) = .ok i → Completes s.afterMove i u → I u.count)
    (hevent : ∀ e, .event e ∈ s.agenda → hostEvent e s.afterMove = .next t → I t) : I t := by
  rcases step_move h with hc | ⟨e, he, hev⟩
  · rcases coreCycle_eq_next hc with rfl | ⟨cause, info, ws, rfl⟩ | ⟨i, u, hd, hu, rfl⟩
    · exact hs
    · exact htrap cause info ws
    · exact hcomplete i u hd hu
  · exact hevent e he hev

/-- The same rule for a host event: the property holds where nothing happens, after a reset, where
only `inbuf` or a run flag is written, after set-register, and after load-state. -/
theorem hostEvent_rule {I : State → Prop} {e : HostEvent} {s t : State}
    (h : hostEvent e s = .next t) (hs : I s)
    (hreset : ∀ image preload, image.length ≤ 32768 → I (resetWith image preload s))
    (hinput : ∀ bytes, I (s.supplyInput bytes)) (hpause : I s.togglePause)
    (honce : I s.requestStep) (hset : ∀ i v, e = .setRegister i.val v → I (s.setReg i v))
    (hload : ∀ p, e = .loadState p → I (s.load p)) : I t := by
  rcases hostEvent_cases h with rfl | ⟨image, preload, -, hlen, rfl⟩ |
    ⟨-, ⟨bytes, -, rfl⟩ | ⟨-, rfl⟩ | ⟨-, rfl⟩ | ⟨i, v, he, rfl⟩ | ⟨p, he, rfl⟩⟩
  · exact hs
  · exact hreset image preload hlen
  · exact hinput bytes
  · exact hpause
  · exact honce
  · exact hset i v he
  · exact hload p he

theorem hostEvent_agenda {e : HostEvent} {s t : State} (h : hostEvent e s = .next t) :
    t.agenda = s.agenda :=
  hostEvent_rule (I := fun t => t.agenda = s.agenda) h rfl (fun _ _ _ => rfl) (fun _ => rfl) rfl rfl
    (fun _ _ _ => rfl) fun _ _ => rfl

/-- A step uses up its move and nothing else of the agenda. -/
theorem step_agenda {s t : State} (h : step s = .next t) : t.agenda = s.agenda.tail :=
  step_rule (I := fun t => t.agenda = s.agenda.tail) h rfl (fun _ _ _ => rfl)
    (fun _ _ _ hu => hu.agenda) fun _ _ hev => hostEvent_agenda hev

/-- A property of every move of the agenda stays one. -/
theorem step_agenda_forall {P : HostMove → Prop} {s t : State} (h : step s = .next t)
    (hs : ∀ m ∈ s.agenda, P m) : ∀ m ∈ t.agenda, P m := fun m hm =>
  hs m (List.mem_of_mem_tail (step_agenda h ▸ hm))

/-! ### The heap -/

/-- Completing changes no heap cell, or is WMEM's store at a heap index. -/
theorem Completes.heap_cases {i : Instr} {s u : State} (h : Completes s i u) :
    u.heap = s.heap ∨ ∃ a b A B, i = .wmem a b ∧ A < 32768 ∧ u.heap = s.heap.writeWord A B := by
  cases h with
  | wmem hA hB => exact .inr ⟨_, _, _, _, rfl, resolve_ok_lt hA, rfl⟩
  | _ => exact .inl rfl

theorem Completes.heapCanonical {i : Instr} {s u : State} (h : Completes s i u)
    (hs : s.heapCanonical) : u.heapCanonical := by
  rcases h.heap_cases with hu | ⟨a, b, A, B, -, hA, hu⟩
  · rwa [State.heapCanonical, hu]
  · rw [State.heapCanonical, hu]
    exact Memory.wf_writeWord hs hA B

theorem hostEvent_heapCanonical {e : HostEvent} {s t : State} (h : hostEvent e s = .next t)
    (hs : s.heapCanonical) : t.heapCanonical :=
  hostEvent_rule (I := State.heapCanonical) h hs
    (fun _ preload hlen => resetWith_heap_wf hlen preload s) (fun _ => hs) hs hs (fun _ _ _ => hs)
    fun p _ => load_heap_wf s p

/-- Settles O43: only WMEM, reset and load-state write the heap, and each keeps its form. -/
theorem heapStaysCanonical : Obligations.HeapStaysCanonical := fun _ _ hs h =>
  step_rule (I := State.heapCanonical) h hs (fun _ _ _ => hs)
    (fun _ _ _ hu => hu.heapCanonical hs) fun _ _ hev => hostEvent_heapCanonical hev hs

/-- Settles O47: of the effects an instruction can complete with, only WMEM's stores in the heap. -/
theorem onlyWmemChangesTheHeap : Obligations.OnlyWmemChangesTheHeap := by
  intro i s t h hi
  rcases exec_cases h with ⟨u, hu, rfl⟩ | ⟨_, _, rfl⟩ | ⟨rfl, -, -⟩
  · rcases hu.heap_cases with hheap | ⟨a, b, _, _, hw, -, -⟩
    · exact hheap
    · exact absurd hw (hi a b)
  · rfl
  · rfl

/-! ### The registers -/

/-- Completing leaves the registers, or writes a literal into one. -/
theorem Completes.x_cases {i : Instr} {s u : State} (h : Completes s i u) :
    u.x = s.x ∨ ∃ (d : Fin 8) (v : Word), v.toNat < 32768 ∧ u.x = (s.setReg d v).x := by
  cases h with
  | write d v _ hv => exact .inr ⟨d, v, hv, rfl⟩
  | pop _ ht => exact .inr ⟨_, _, resolve_ok_lt ht, rfl⟩
  | @inp d c _ _ => exact .inr ⟨d, c.setWidth 16, by simp; omega, rfl⟩
  | _ => exact .inl rfl

theorem regsLiteral_congr {s t : State} (h : t.x = s.x) (hs : s.regsLiteral) : t.regsLiteral :=
  fun i => by rw [State.reg_def, h]; exact hs i

theorem regsLiteral_setReg {s : State} (hs : s.regsLiteral) (d : Fin 8) {v : Word}
    (hv : v.toNat < 32768) : (s.setReg d v).regsLiteral := by
  intro i
  by_cases hdi : d = i
  · subst hdi
    rwa [State.reg_setReg_self]
  · rw [State.reg_setReg_of_ne s hdi]
    exact hs i

theorem Completes.regsLiteral {i : Instr} {s u : State} (h : Completes s i u)
    (hs : s.regsLiteral) : u.regsLiteral := by
  rcases h.x_cases with hu | ⟨d, v, hv, hu⟩
  · exact regsLiteral_congr hu hs
  · exact regsLiteral_congr hu (regsLiteral_setReg hs d hv)

theorem reset_regsLiteral : State.reset.regsLiteral := fun i => by
  simp [State.reg, State.reset]

theorem hostEvent_regsLiteral {e : HostEvent} {s t : State} (h : hostEvent e s = .next t)
    (he : (HostMove.event e).quiet = true) (hs : s.regsLiteral) : t.regsLiteral :=
  hostEvent_rule (I := State.regsLiteral) h hs
    (fun _ _ _ => regsLiteral_congr rfl reset_regsLiteral) (fun _ => hs) hs hs
    (fun _ _ hset => by cases hset; cases he) fun _ hload => by cases hload; cases he

/-- Settles O44: instructions write only literals, and of the quiet events only reset writes a
register. -/
theorem registersStayLiteral : Obligations.RegistersStayLiteral := fun s _ hs hq h =>
  ⟨step_rule (I := State.regsLiteral) h hs (fun _ _ _ => hs)
    (fun _ _ _ hu => hu.regsLiteral (s := s.afterMove) hs)
    fun _ he hev => hostEvent_regsLiteral hev (hq _ he) hs, step_agenda_forall h hq⟩

/-! ### pc and the stack -/

/-- The window is as long as the heap allows, four words at most. -/
theorem fetch_length (s : State) : (fetch s).length = min 4 (32768 - s.pc.toNat) := by
  unfold fetch
  split
  · rename_i h
    simp only [Config.heapCells] at h
    simp; omega
  · simp

/-- An instruction that was fetched and decoded ends inside the heap. -/
theorem pc_add_len_le {s : State} {i : Instr} (h : decode (fetch s) = .ok i) :
    s.pc.toNat + i.mnemonic.len ≤ 32768 := by
  obtain ⟨rest, hw, hb⟩ := decode_eq_ok h
  have hlen := fetch_length s
  have harity : ¬ rest.length < i.mnemonic.arity := fun hlt => by
    simp [Instr.build_eq_none.2 hlt] at hb
  rw [hw, List.length_cons] at hlen
  unfold Mnemonic.len
  omega

/-- The address after an instruction that ends inside the heap does not wrap. -/
theorem next_pc_le {p : Word} {n : Nat} (h : p.toNat + n ≤ 32768) :
    (p + BitVec.ofNat 16 n).toNat ≤ 32768 := by
  rw [BitVec.toNat_add, BitVec.toNat_ofNat]
  omega

theorem Completes.pc_le {i : Instr} {s u : State} (h : Completes s i u) (hs : s.flowBounded)
    (hlen : s.pc.toNat + i.mnemonic.len ≤ 32768) : u.pc.toNat ≤ 32768 := by
  obtain ⟨hpc, hstack⟩ := hs
  cases h with
  | jump _ hB => exact (resolve_ok_lt hB).le
  | call hA => exact (resolve_ok_lt hA).le
  | @ret below v hv => exact hstack v (by simp [hv])
  | halt => exact hpc
  | untaken hi => rcases hi with rfl | rfl <;> exact next_pc_le hlen
  | _ => exact next_pc_le hlen

/-- A stack word after an instruction was there before, or is PUSH's literal or CALL's return
address. -/
theorem Completes.mem_stack {i : Instr} {s u : State} (h : Completes s i u) {v : Word}
    (hv : v ∈ u.stack) :
    v ∈ s.stack ∨ v.toNat < 32768 ∨ v = s.pc + 2 ∧ ∃ a, i = .call a := by
  cases h with
  | push hA =>
    rcases List.mem_append.1 hv with hv | hv
    · exact .inl hv
    · exact .inr (.inl (List.mem_singleton.1 hv ▸ resolve_ok_lt hA))
  | call =>
    rcases List.mem_append.1 hv with hv | hv
    · exact .inl hv
    · exact .inr (.inr ⟨List.mem_singleton.1 hv, _, rfl⟩)
  | pop | ret => exact .inl (List.mem_of_mem_dropLast hv)
  | _ => exact .inl hv

theorem Completes.flowBounded {i : Instr} {s u : State} (h : Completes s i u)
    (hs : s.flowBounded) (hlen : s.pc.toNat + i.mnemonic.len ≤ 32768) : u.flowBounded := by
  refine ⟨h.pc_le hs hlen, fun v hv => ?_⟩
  rcases h.mem_stack hv with hv | hv | ⟨rfl, a, rfl⟩
  · exact hs.2 v hv
  · exact hv.le
  · exact next_pc_le hlen

theorem reset_flowBounded : State.reset.flowBounded := ⟨Nat.zero_le _, by simp [State.reset]⟩

theorem hostEvent_flowBounded {e : HostEvent} {s t : State} (h : hostEvent e s = .next t)
    (he : (HostMove.event e).loadsNothing = true) (hs : s.flowBounded) : t.flowBounded :=
  hostEvent_rule (I := State.flowBounded) h hs (fun _ _ _ => reset_flowBounded) (fun _ => hs) hs hs
    (fun _ _ _ => hs) fun _ hload => by cases hload; cases he

/-- Settles O45: a decoded instruction ends inside the heap, so neither the advance of pc nor the
return address wraps, and every jump target is resolved or comes from the stack. -/
theorem flowStaysBounded : Obligations.FlowStaysBounded := fun _ _ hs hq h =>
  ⟨step_rule (I := State.flowBounded) h hs (fun _ _ _ => hs)
    (fun _ _ hd hu => hu.flowBounded hs (pc_add_len_le hd))
    fun _ he hev => hostEvent_flowBounded hev (hq _ he) hs, step_agenda_forall h hq⟩

/-- Settles O46: each invariant at reset, by the reset values. -/
theorem resetMeetsTheInvariants : Obligations.ResetMeetsTheInvariants :=
  ⟨reset_heap_wf, reset_regsLiteral, reset_flowBounded, List.forall_mem_nil _,
    List.forall_mem_nil _⟩

/-! ### The streams -/

theorem Completes.out_append {i : Instr} {s u : State} (h : Completes s i u) :
    ∃ more, u.out = s.out ++ more ∧ more.length ≤ 1 := by
  cases h with
  | out => exact ⟨[_], rfl, le_refl 1⟩
  | _ => exact ⟨[], (List.append_nil _).symm, Nat.zero_le 1⟩

theorem Completes.hist_append {i : Instr} {s u : State} (h : Completes s i u) :
    ∃ more, u.hist = s.hist ++ more ∧ more.length ≤ 1 := by
  cases h with
  | inp => exact ⟨[_], rfl, le_refl 1⟩
  | _ => exact ⟨[], (List.append_nil _).symm, Nat.zero_le 1⟩

/-- An instruction only moves input from the front of `inbuf` to the end of `hist`. -/
theorem Completes.hist_append_inbuf {i : Instr} {s u : State} (h : Completes s i u) :
    u.hist ++ u.inbuf = s.hist ++ s.inbuf := by
  cases h with
  | inp hi => simp [hi]
  | _ => rfl

/-- Settles O48: a cycle that completes no instruction leaves the streams, and of the instructions
only OUT and IN touch them, by one item each. -/
theorem streamsAreConserved : Obligations.StreamsAreConserved := by
  intro s t ha h
  rw [step_of_agenda_nil ha] at h
  rcases coreCycle_eq_next h with rfl | ⟨_, _, _, rfl⟩ | ⟨_, u, -, hu, rfl⟩
  · exact ⟨⟨[], by simp⟩, ⟨[], by simp⟩, rfl⟩
  · exact ⟨⟨[], by simp⟩, ⟨[], by simp⟩, rfl⟩
  · exact ⟨hu.out_append, hu.hist_append, hu.hist_append_inbuf⟩

/-! ### Run control -/

/-- The fields the run loop keeps for itself, at any values. -/
def State.withRunControl (h p o : Bool) (n : Nat) (s : State) : State :=
  { s with halted := h, paused := p, stepOnce := o, cycle := n }

/-- What a program can see of a state, and its trap record. -/
def State.program (s : State) :
    Memory × RegFile × List Word × Word × List Byte × List Byte × List Byte × Option TrapRecord :=
  (s.heap, s.x, s.stack, s.pc, s.out, s.inbuf, s.hist, s.trap)

/-- Two runs of pseudocode complete with the same program state, or stop alike. -/
def SameEnd (m m' : Except Stop State) : Prop := m.map State.program = m'.map State.program

theorem SameEnd.ok {u u' : State} (h : u.program = u'.program) : SameEnd (.ok u) (.ok u') :=
  congrArg Except.ok h

/-- The same access first, then continuations that end alike. -/
theorem SameEnd.bind {α : Type} {m : Except Stop α} {k k' : α → Except Stop State}
    (h : ∀ v, SameEnd (k v) (k' v)) : SameEnd (m >>= k) (m >>= k') := by
  cases m with
  | ok v => exact h v
  | error e => rfl

/-- Writing the trap record reads only what a program sees. -/
theorem takeTrap_program {s s' : State} (h : s.program = s'.program) (cause : TrapCause)
    (info : Option Word) (ws : List Word) :
    (takeTrap cause info ws s).program = (takeTrap cause info ws s').program := by
  simp only [State.program, Prod.mk.injEq] at h ⊢
  obtain ⟨hheap, hx, hstack, hpc, hout, hinbuf, hhist, -⟩ := h
  simp [hheap, hx, hstack, hpc, hout, hinbuf, hhist, fetch_congr hheap hpc]

/-- Pseudocode that ends alike is answered alike. -/
theorem settle_sameEnd {ws : List Word} {s s' t : State} {m m' : Except Stop State}
    (hm : SameEnd m m') (hs : s.program = s'.program) (h : settle ws s m = .next t) :
    ∃ u, settle ws s' m' = .next u ∧ u.program = t.program := by
  cases m with
  | ok v =>
    cases m' with
    | ok v' =>
      cases h
      exact ⟨v'.count, rfl, (Except.ok.inj hm).symm⟩
    | error e' => cases hm
  | error e =>
    cases m' with
    | ok v' => cases hm
    | error e' =>
      cases hm
      cases e with
      | raise cause info =>
        cases h
        exact ⟨takeTrap cause info ws s', rfl, (takeTrap_program hs cause info ws).symm⟩
      | stall =>
        cases h
        exact ⟨s', rfl, hs.symm⟩

section
variable (h p o : Bool) (n : Nat)

theorem alu2_sameEnd (f : Word → Word → Except Stop Word) (a b c : Word) (s : State) :
    SameEnd (alu2 f a b c s) (alu2 f a b c (s.withRunControl h p o n)) :=
  .bind fun _ => .bind fun _ => .bind fun _ => .bind fun _ => .ok rfl

theorem branch_sameEnd (taken : Bool) (b : Word) (s : State) :
    SameEnd (branch taken b s) (branch taken b (s.withRunControl h p o n)) := by
  cases taken with
  | true => exact .bind fun _ => .ok rfl
  | false => exact .bind fun _ => .ok rfl

/-- The pseudocode of an instruction ends alike whatever the run control is. -/
theorem exec_sameEnd (i : Instr) (s : State) : ∃ m m', exec i s = settle i.operands s m ∧
    exec i (s.withRunControl h p o n) = settle i.operands (s.withRunControl h p o n) m' ∧
    SameEnd m m' := by
  cases i with
  | halt => exact ⟨.ok s.setHalted, .ok (s.withRunControl h p o n).setHalted, rfl, rfl, .ok rfl⟩
  | noop => exact ⟨.ok (s.advance 1), .ok ((s.withRunControl h p o n).advance 1), rfl, rfl, .ok rfl⟩
  | add | mult | mod | and | or => exact ⟨_, _, rfl, rfl, alu2_sameEnd h p o n _ _ _ _ s⟩
  | jt | jf => exact ⟨_, _, rfl, rfl, .bind fun _ => branch_sameEnd h p o n _ _ s⟩
  | eq | gt | pop => exact ⟨_, _, rfl, rfl, .bind fun _ => .bind fun _ => .bind fun _ => .ok rfl⟩
  | set | not | inp => exact ⟨_, _, rfl, rfl, .bind fun _ => .bind fun _ => .ok rfl⟩
  | push | jmp | call | ret | out => exact ⟨_, _, rfl, rfl, .bind fun _ => .ok rfl⟩
  | rmem =>
    exact ⟨_, _, rfl, rfl, .bind fun _ => .bind fun _ => .bind fun _ => .bind fun _ => .ok rfl⟩
  | wmem a b =>
    refine ⟨_, _, rfl, rfl, .bind fun A => .bind fun B => ?_⟩
    unfold rawWrite
    cases classify A with
    | literal | register => exact .ok rfl
    | invalid => rfl

end

/-- Settles O49: no instruction reads a run flag or `cycle`. -/
theorem programsCannotSeeRunControl : Obligations.ProgramsCannotSeeRunControl := by
  intro i s t h p o n ht
  obtain ⟨m, m', hm, hm', hsame⟩ := exec_sameEnd h p o n i s
  have hs : s.program = (s.withRunControl h p o n).program := rfl
  obtain ⟨u, hu, hp⟩ := settle_sameEnd hsame hs (hm ▸ ht)
  simp only [State.program, Prod.mk.injEq] at hp
  exact ⟨u, hm'.trans hu, hp⟩

theorem Completes.halted {i : Instr} {s u : State} (h : Completes s i u) (hi : i ≠ .halt) :
    u.halted = s.halted := by
  cases h with
  | halt => exact absurd rfl hi
  | _ => rfl

theorem coreCycle_of_halted {s : State} (h : s.halted = true) : coreCycle s = .next s := by
  simp [coreCycle, State.runnable, h]

/-- Settles O50: HALT's effect is the one that sets the flag, a trap or a stall keeps it, and a
halted core is not runnable. -/
theorem onlyHaltSetsHalted : Obligations.OnlyHaltSetsHalted := by
  refine ⟨fun s => ⟨s.setHalted.count, rfl, rfl⟩, fun i s t h hi => ?_, fun s ha hh => ?_⟩
  · rcases exec_cases h with ⟨u, hu, rfl⟩ | ⟨_, _, rfl⟩ | ⟨rfl, -, -⟩
    · exact hu.halted hi
    · rfl
    · rfl
  · rw [step_of_agenda_nil ha, coreCycle_of_halted hh]

/-- Settles O42: one case per line of the spec's table. -/
theorem runStatesReadOffTheFlags : Obligations.RunStatesReadOffTheFlags := by
  intro s
  unfold State.runState State.runnable
  cases htrap : s.trap with
  | some r => simp [State.heldByHost, htrap]
  | none =>
    cases hhalted : s.halted with
    | true => simp [State.heldByHost, hhalted]
    | false =>
      cases hpaused : s.paused with
      | false => simp [State.heldByHost, hpaused]
      | true => cases honce : s.stepOnce <;> simp [State.heldByHost, *]

/-! ### Reset -/

/-- Reset is answered alike whether the core is trapped or not. -/
theorem hostEvent_reset (image : List Word) (preload : List Byte) (s : State) :
    hostEvent (.reset image preload) s = resetEvent image preload s := by
  unfold hostEvent
  split <;> rfl

theorem Memory.readWord_nil (k : Nat) : readWord [] k = 0 := by
  rw [readWord, readByte_nil, readByte_nil]
  decide

/-- The heap of a reset holds the image, and 0 beyond it. -/
theorem memRead_resetWith {image : List Word} (h : image.length ≤ 32768) (preload : List Byte)
    (s : State) (k : Nat) : memRead (resetWith image preload s) k = image.getD k 0 := by
  rw [memRead, resetWith_heap, Memory.readWord_loadWords Memory.wf_nil (by simpa using h)]
  split
  · rw [Nat.sub_zero]
  · rw [List.getD_eq_default _ _ (by omega), Memory.readWord_nil]

/-- Settles O54: reset is answered from any state, with every field but the agenda at its value. -/
theorem resetSetsEveryPieceOfState : Obligations.ResetSetsEveryPieceOfState := by
  intro s image preload rest ha
  rw [step_of_agenda_event ha, hostEvent_reset, resetEvent]
  constructor
  · intro hlen
    exact ⟨resetWith image preload { s with agenda := rest }, if_pos hlen,
      memRead_resetWith hlen preload _, rfl, rfl, rfl, rfl, rfl, rfl, rfl, rfl, rfl, rfl, rfl, rfl⟩
  · intro hlong
    exact if_neg (by simpa using hlong)

end Sys2Proof.Machine

/-! ### Memory and operands (20_memory.md) -/

namespace Sys2Proof.Machine

/-- Settles O1: a cell is its two bytes, and a store writes those two. -/
theorem heapWriteChangesOneCell : Obligations.HeapWriteChangesOneCell := by
  intro s k v hwf hk
  have hread : ∀ j, memRead (s.memWrite k v) j = if k = j then v else memRead s j :=
    Memory.readWord_writeWord hwf hk v
  exact ⟨(hread k).trans (if_pos rfl), fun j hj => (hread j).trans (if_neg hj.symm), rfl⟩

/-! ### The alias chain -/

theorem aliasChain_regWord_succ (x : RegFile) (i : Fin 8) (n : Nat) :
    aliasChain x (regWord i) (n + 1) = aliasChain x x[i] n := by
  simp [aliasChain]

/-- The chain goes on exactly from a register reference, with that register's content. -/
theorem aliasChain_succ_eq_some {x : RegFile} {V W : Word} {n : Nat} :
    aliasChain x V (n + 1) = some W ↔
      ∃ i : Fin 8, V = regWord i ∧ aliasChain x x[i] n = some W := by
  cases hc : classify V with
  | register i =>
    obtain rfl := classify_eq_register.1 hc
    refine ⟨fun h => ⟨i, rfl, aliasChain_regWord_succ x i n ▸ h⟩, ?_⟩
    rintro ⟨j, hij, h⟩
    obtain rfl := regWord_injective hij
    exact (aliasChain_regWord_succ x i n).trans h
  | literal | invalid =>
    refine ⟨fun h => by simp [aliasChain, hc] at h, ?_⟩
    rintro ⟨i, rfl, -⟩
    simp at hc

/-- The chain from word m of a chain is the rest of that chain. -/
theorem aliasChain_add {x : RegFile} {V U : Word} {m : Nat} (h : aliasChain x V m = some U)
    (n : Nat) : aliasChain x V (m + n) = aliasChain x U n := by
  induction m generalizing V with
  | zero =>
    obtain rfl := Option.some.inj h
    rw [Nat.zero_add]
  | succ m ih =>
    obtain ⟨i, rfl, hi⟩ := aliasChain_succ_eq_some.1 h
    rw [Nat.add_right_comm, aliasChain_regWord_succ, ih hi]

/-- Every word of a chain before its last is a register reference. -/
theorem aliasChain_register_of_lt {x : RegFile} {V W : Word} {k m : Nat}
    (h : aliasChain x V m = some W) (hk : k < m) :
    ∃ i : Fin 8, aliasChain x V k = some (regWord i) := by
  induction k generalizing V m with
  | zero =>
    obtain ⟨m, rfl⟩ := Nat.exists_eq_add_one.2 hk
    obtain ⟨i, rfl, -⟩ := aliasChain_succ_eq_some.1 h
    exact ⟨i, rfl⟩
  | succ k ih =>
    obtain ⟨m, rfl⟩ := Nat.exists_eq_add_one.2 (Nat.zero_lt_of_lt hk)
    obtain ⟨i, rfl, hi⟩ := aliasChain_succ_eq_some.1 h
    obtain ⟨j, hj⟩ := ih hi (Nat.lt_of_succ_lt_succ hk)
    exact ⟨j, aliasChain_succ_eq_some.2 ⟨i, rfl, hj⟩⟩

/-- A chain that meets one word twice never ends: from its second place on it repeats what followed
the first. -/
theorem aliasCyclic_of_repeat {x : RegFile} {V U : Word} {i j : Nat} (hij : i < j)
    (hi : aliasChain x V i = some U) (hj : aliasChain x V j = some U) : aliasCyclic x V := by
  intro n
  induction n using Nat.strongRecOn with
  | ind n ih =>
    by_cases hn : n < j
    · obtain ⟨r, hr⟩ := aliasChain_register_of_lt hj hn
      exact ⟨_, hr⟩
    · obtain ⟨m, rfl⟩ := Nat.exists_eq_add_of_le (Nat.le_of_not_lt hn)
      rw [aliasChain_add hj, ← aliasChain_add hi]
      exact ih (i + m) (by omega)

/-- The words before word 9 are nine references to eight registers, so two of them are the same:
a chain that long never ends (R33 (c)). -/
theorem aliasCyclic_of_aliasChain_nine {x : RegFile} {V W : Word}
    (h : aliasChain x V 9 = some W) : aliasCyclic x V := by
  choose r hr using fun k : Fin 9 => aliasChain_register_of_lt h k.isLt
  obtain ⟨i, j, hne, hrij⟩ := Fintype.exists_ne_map_eq_of_card_lt r (by simp)
  have hsame : aliasChain x V i = aliasChain x V j := by rw [hr, hr, hrij]
  rcases Nat.lt_or_gt_of_ne (Fin.val_ne_of_ne hne) with hlt | hgt
  · exact aliasCyclic_of_repeat hlt (hsame.trans (hr j)) (hr j)
  · exact aliasCyclic_of_repeat hgt (hsame.symm.trans (hr i)) (hr i)

/-! ### Resolve along the chain -/

/-- n dereferences take `Resolve` to word n of the chain. -/
theorem resolveFrom_of_aliasChain {x : RegFile} {V W : Word} {n : Nat}
    (h : aliasChain x V n = some W) (k : Nat) : resolveFrom x (n + k) V = resolveFrom x k W := by
  induction n generalizing V with
  | zero =>
    obtain rfl := Option.some.inj h
    rw [Nat.zero_add]
  | succ n ih =>
    obtain ⟨i, rfl, hi⟩ := aliasChain_succ_eq_some.1 h
    rw [Nat.add_right_comm, resolveFrom_register_succ, ih hi]

/-- Word n of the chain, within the bound, decides `Resolve` with the dereferences left. -/
theorem resolve_of_aliasChain {x : RegFile} {V W : Word} {n : Nat}
    (h : aliasChain x V n = some W) (hn : n ≤ 8) : resolve x V = resolveFrom x (8 - n) W := by
  rw [← resolveFrom_of_aliasChain h, Nat.add_sub_cancel' hn, resolve]

/-- Settles O3: word n decides `Resolve` with 8 - n dereferences left, by one equation of the
loop per clause. -/
theorem resolveFollowsTheAliasChain : Obligations.ResolveFollowsTheAliasChain := by
  intro x V W n h
  refine ⟨fun hn hW => ?_, fun hn hW => ?_, ?_⟩
  · rw [resolve_of_aliasChain h hn, resolveFrom_literal x _ hW]
  · rw [resolve_of_aliasChain h hn, resolveFrom_invalid x _ hW]
  · rintro r rfl rfl
    rw [resolve_of_aliasChain h (le_refl 8), resolveFrom_register_zero]

/-- The loop with n dereferences left raises RegisterCycle exactly when the chain has a word after
word n. -/
theorem resolveFrom_registerCycle_iff {x : RegFile} {V : Word} {n : Nat} :
    (∃ W, resolveFrom x n V = .error (.raise .registerCycle (some W))) ↔
      ∃ W, aliasChain x V (n + 1) = some W := by
  induction n generalizing V with
  | zero => cases hc : classify V <;> simp [resolveFrom, aliasChain, hc]
  | succ n ih =>
    cases hc : classify V with
    | register i => simpa [resolveFrom, aliasChain, hc] using ih (V := x[i])
    | literal | invalid => simp [resolveFrom, aliasChain, hc]

/-- Settles O4: RegisterCycle says that the chain has a word 9, and by the pigeonhole principle a
chain that has one never ends. -/
theorem registerCycleExactlyOnCyclicChains : Obligations.RegisterCycleExactlyOnCyclicChains := by
  intro x V
  refine resolveFrom_registerCycle_iff.trans ⟨?_, fun hcyclic => hcyclic 9⟩
  rintro ⟨W, hW⟩
  exact aliasCyclic_of_aliasChain_nine hW

/-! ### RegWrite and raw access -/

theorem regWrite_of_destOk_false {A : Word} (h : destOk A = false) (v : Word) (s : State) :
    regWrite A v s = .error (.raise .addressingViolation (some A)) := by
  rw [regWrite, destination_eq_error.2 ⟨h, rfl⟩, bind_error]

/-- With a destination that names a register, `RegWrite` is the value step and then the store. -/
theorem regWrite_regWord (d : Fin 8) (v : Word) (s : State) :
    regWrite (regWord d) v s = (resolve s.x v).map (s.setReg d) := by
  rw [regWrite, destination_regWord, bind_ok]
  cases resolve s.x v <;> rfl

/-- A register that has just been given a literal resolves to it. -/
theorem resolve_set_regWord (x : RegFile) (d : Fin 8) {t : Word} (ht : t.toNat < 32768) :
    resolve (x.set d t) (regWord d) = .ok t := by
  have hget : (x.set d t)[d] = t := by simp
  rw [resolve_register_literal (by rwa [hget]), hget]

/-- Settles O5: the destination check alone decides the first clause, the value step the
other two. -/
theorem regWriteStoresAResolvedLiteral : Obligations.RegWriteStoresAResolvedLiteral := by
  intro s A v
  refine ⟨fun h => regWrite_of_destOk_false h v s, ?_, ?_⟩
  · rintro d t rfl ht
    have hlit := resolve_ok_lt ht
    exact ⟨by rw [regWrite_regWord, ht]; rfl, hlit, resolve_set_regWord s.x d hlit⟩
  · rintro d e rfl he
    rw [regWrite_regWord, he]
    rfl

/-- Raw read of a register index: the stored content. -/
theorem rawRead_regWord (r : Fin 8) (s : State) : rawRead (regWord r) s = .ok (s.reg r) := by
  simp [rawRead]

/-- Raw write of a register index: the value as given. -/
theorem rawWrite_regWord (r : Fin 8) (v : Word) (s : State) :
    rawWrite (regWord r) v s = .ok (s.setReg r v) := by
  simp [rawWrite]

theorem rawRead_invalid {i : Word} (h : 32776 ≤ i.toNat) (s : State) :
    rawRead i s = .error (.raise .addressingViolation (some i)) := by
  simp [rawRead, classify_eq_invalid.2 h]

theorem rawWrite_invalid {i : Word} (h : 32776 ≤ i.toNat) (v : Word) (s : State) :
    rawWrite i v s = .error (.raise .addressingViolation (some i)) := by
  simp [rawWrite, classify_eq_invalid.2 h]

/-- Settles O2: one clause per range of the index. -/
theorem rawAccessIsUnresolved : Obligations.RawAccessIsUnresolved := by
  intro s i v
  refine ⟨fun h => ⟨rawRead_heap h s, rawWrite_heap h v s⟩, ?_,
    fun h => ⟨rawRead_invalid h s, rawWrite_invalid h v s⟩⟩
  rintro r rfl
  exact ⟨rawRead_regWord r s, rawWrite_regWord r v s⟩

end Sys2Proof.Machine

/-! ### Encoding (30_encoding.md): decoder, fetch, control signals and frames -/

namespace Sys2Proof

/-! ### Decode and encode -/

/-- Decoding the words of an instruction gives it back, whatever follows them. -/
theorem decode_encode_append (i : Instr) (rest : List Word) :
    decode (encode i ++ rest) = .ok i := by
  simp [decode, encode, Instr.build_operands]

/-- A window that decodes begins with the words of what it decodes to. -/
theorem eq_encode_append_of_decode {ws : List Word} {i : Instr} (h : decode ws = .ok i) :
    ∃ rest, ws = encode i ++ rest := by
  obtain ⟨rest, rfl, hbuild⟩ := decode_eq_ok h
  obtain ⟨-, hrest⟩ := Instr.build_eq_some hbuild
  exact ⟨rest.drop i.mnemonic.arity, congrArg (i.mnemonic.opcode :: ·) hrest⟩

/-- Settles O30: the decoder's row is the encoder's, and building takes the operand words alone. -/
theorem decodeEncodeRoundTrip : Obligations.DecodeEncodeRoundTrip :=
  ⟨decode_encode_append, fun _ _ => eq_encode_append_of_decode⟩

/-! ### The windows the decoder refuses -/

theorem Mnemonic.opcode_lt (m : Mnemonic) : m.opcode.toNat < 22 := by cases m <;> decide

theorem Mnemonic.len_le_four (m : Mnemonic) : m.len ≤ 4 := by cases m <;> decide

theorem decode_of_opcode_ge {op : Word} (h : 22 ≤ op.toNat) (rest : List Word) :
    decode (op :: rest) = .error (.invalid op) := by
  simp [decode, Mnemonic.ofOpcode_eq_none.2 h]

theorem decode_of_operand_missing {m : Mnemonic} {rest : List Word}
    (h : rest.length < m.arity) :
    decode (m.opcode :: rest) = .error (.parameterMissing m.opcode) := by
  simp [decode, Instr.build_eq_none.2 h]

theorem decode_of_operands_present {m : Mnemonic} {rest : List Word}
    (h : m.arity ≤ rest.length) : ∃ i, decode (m.opcode :: rest) = .ok i := by
  cases hbuild : Instr.build m rest with
  | none => exact absurd (Instr.build_eq_none.1 hbuild) (not_lt.2 h)
  | some i => exact ⟨i, by simp [decode, hbuild]⟩

/-- What a window that is not empty decodes to: its first word is no opcode, or it is the opcode of
a row whose operand words are missing or present. -/
theorem decode_cons_cases (op : Word) (rest : List Word) :
    (22 ≤ op.toNat ∧ decode (op :: rest) = .error (.invalid op)) ∨
      ∃ m : Mnemonic, op = m.opcode ∧
        ((rest.length < m.arity ∧ decode (op :: rest) = .error (.parameterMissing op)) ∨
          (m.arity ≤ rest.length ∧ ∃ i, decode (op :: rest) = .ok i)) := by
  cases hrow : Mnemonic.ofOpcode op with
  | none =>
    have hop := Mnemonic.ofOpcode_eq_none.1 hrow
    exact .inl ⟨hop, decode_of_opcode_ge hop rest⟩
  | some m =>
    obtain rfl := Mnemonic.ofOpcode_eq_some hrow
    rcases lt_or_ge rest.length m.arity with h | h
    · exact .inr ⟨m, rfl, .inl ⟨h, decode_of_operand_missing h⟩⟩
    · exact .inr ⟨m, rfl, .inr ⟨h, decode_of_operands_present h⟩⟩

/-- Settles O32: each kind of window decodes to one answer, so each clause is read off it. -/
theorem decoderErrorsAreExact : Obligations.DecoderErrorsAreExact := by
  intro ws
  cases ws with
  | nil => simp [decode]
  | cons op rest =>
    rcases decode_cons_cases op rest with ⟨hop, hd⟩ | ⟨m, rfl, ⟨hlen, hd⟩ | ⟨hlen, i, hd⟩⟩
    · simp [hd, hop, Mnemonic.ofOpcode_eq_none.2 hop]
    · have hshort : rest.length + 1 < m.len := by rw [Mnemonic.len]; omega
      simp [hd, m.opcode_lt, hshort]
    · have hlong : m.len ≤ rest.length + 1 := by rw [Mnemonic.len]; omega
      simp [hd, m.opcode_lt, hlong]

/-- Settles O33: each window is decoded. -/
theorem sourceSequencesDecode : Obligations.SourceSequencesDecode := by
  unfold Obligations.SourceSequencesDecode
  decide

end Sys2Proof

namespace Sys2Proof.Machine

open Sys2Proof.Claims

/-! ### Fetch -/

/-- A word of the window is the cell so many after pc. -/
theorem fetch_getElem {s : State} {k : Nat} (h : k < (fetch s).length) :
    (fetch s)[k] = memRead s (s.pc.toNat + k) := by
  have hpc : ¬ Config.heapCells ≤ s.pc.toNat := by
    rw [fetch_length] at h
    simp only [Config.heapCells]
    omega
  simp [fetch, if_neg hpc]

theorem fetch_of_pc_ge {s : State} (h : 32768 ≤ s.pc.toNat) : fetch s = [] := if_pos h

/-- Below the end of the heap the window begins with the cell at pc. -/
theorem fetch_of_pc_lt {s : State} (h : s.pc.toNat < 32768) :
    fetch s = memRead s s.pc.toNat :: (fetch s).tail := by
  have hlen := fetch_length s
  cases hf : fetch s with
  | nil =>
    rw [hf, List.length_nil] at hlen
    omega
  | cons op rest =>
    have hop := fetch_getElem (s := s) (k := 0) (by simp [hf])
    simpa [hf] using hop

/-- Words loaded at pc, four at most and below the end of the heap, begin the window. -/
theorem prefix_fetch_loadWords {s : State} (hw : s.heap.wf) {words : List Word}
    (hlen : words.length ≤ 4) (hfit : s.pc.toNat + words.length ≤ 32768) :
    words <+: fetch { s with heap := s.heap.loadWords s.pc.toNat words } := by
  rw [List.prefix_iff_getElem]
  refine ⟨?_, fun k hk => ?_⟩
  · rw [fetch_length]
    exact le_min hlen (by dsimp only; omega)
  · rw [fetch_getElem, memRead, Memory.readWord_loadWords hw hfit, if_pos (by simpa using hk)]
    simp [hk]

/-- Settles O31: the window begins with the stored words, and decoding reads no further. -/
theorem storedInstructionIsFetched : Obligations.StoredInstructionIsFetched := by
  intro s i hw hfit
  rw [← encode_length] at hfit
  have hlen : (encode i).length ≤ 4 := encode_length i ▸ i.mnemonic.len_le_four
  obtain ⟨rest, hrest⟩ := prefix_fetch_loadWords hw hlen hfit
  rw [← hrest, decode_encode_append]

theorem coreCycle_of_decode_ok {s : State} {i : Instr} (hr : s.runnable = true)
    (hd : decode (fetch s) = .ok i) : coreCycle s = exec i s := by
  simp [coreCycle, hr, hd]

theorem coreCycle_of_decode_error {s : State} {e : DecodeError} (hr : s.runnable = true)
    (hd : decode (fetch s) = .error e) : coreCycle s = .next (takeDecodeTrap e s) := by
  simp [coreCycle, hr, hd]

/-- Settles O36: the window is empty, begins with a word that is no opcode, or is cut short by the
end of the heap. -/
theorem fetchTrapsAtTheEndOfTheHeap : Obligations.FetchTrapsAtTheEndOfTheHeap := by
  intro s ha hr
  rw [step_of_agenda_nil ha]
  refine ⟨fun hpc => ?_, fun hpc hop => ?_, fun m hpc hop hlen => ?_⟩
  · have hf := fetch_of_pc_ge hpc
    rw [coreCycle_of_decode_error hr (e := .empty) (by rw [hf]; rfl)]
    simp [takeDecodeTrap, takeTrap, decodeCause, decodeOperands, hf]
  · have hf := fetch_of_pc_lt hpc
    rw [coreCycle_of_decode_error hr (by rw [hf, decode_of_opcode_ge hop])]
    simp only [takeDecodeTrap, takeTrap, decodeCause, decodeOperands]
    rw [hf, List.head?_cons]
  · have hf := fetch_of_pc_lt hpc
    have hmissing : (fetch s).tail.length < m.arity := by
      rw [List.length_tail, fetch_length]
      rw [Mnemonic.len] at hlen
      omega
    rw [hop] at hf
    have hstep := coreCycle_of_decode_error hr (by rw [hf, decode_of_operand_missing hmissing])
    exact ⟨_, _, hstep, rfl, rfl, rfl, by rw [hf, List.head?_cons], rfl, rfl⟩

/-! ### Words placed for the next step -/

theorem placeIndex_add_four_le (s : State) : placeIndex s + 4 ≤ 32768 := by
  unfold placeIndex
  split
  · assumption
  · decide

/-- Four words placed in a canonical heap are the whole window. -/
theorem fetch_placeWords {s : State} (hw : s.heap.wf) {words : List Word}
    (hlen : words.length = 4) : fetch (placeWords s words) = words := by
  have hidx := placeIndex_add_four_le s
  have hpc : (placeWords s []).pc.toNat = placeIndex s := by
    rw [placeWords, BitVec.toNat_ofNat]
    omega
  have hprefix : words <+: fetch (placeWords s words) := by
    have := prefix_fetch_loadWords (s := placeWords s []) hw hlen.le (by omega)
    rwa [hpc] at this
  have hfull : (fetch (placeWords s words)).length = 4 := by
    rw [fetch_length, show (placeWords s words).pc.toNat = placeIndex s from hpc]
    omega
  exact (hprefix.eq_of_length (hlen.trans hfull.symm)).symm

theorem decode_tableWords {nbits w : Nat} {i : Instr} (h : decodeTableWord nbits w = some i) :
    decode (tableWords nbits w) = .ok i := by
  unfold decodeTableWord at h
  split at h
  · rename_i j hj
    rw [hj, Option.some.inj h]
  · cases h

/-- Settles O56: the placed words are the window of a core that may step with no move pending. -/
theorem placedTableWordRuns : Obligations.PlacedTableWordRuns := by
  intro s nbits w i hw hi
  have hfetch : fetch (s.withFetchWord nbits w) = tableWords nbits w :=
    fetch_placeWords hw (by simp [tableWords])
  rw [step_of_agenda_nil rfl]
  exact coreCycle_of_decode_ok rfl (by rw [hfetch, decode_tableWords hi])

/-! ### The datapath driven by control signals (R59, R60) -/

/-- Phases 2 and 3 of R60 with one row of signals: the pseudocode that `datapath` settles. -/
def drive (g : Signals) (a b c : Word) (s : State) : Except Stop State := do
  let l ← checkAndRead g a b c s
  commit g l s

theorem datapath_eq_settle_drive (i : Instr) (s : State) :
    datapath i s = settle i.operands s (drive (signals i.mnemonic) (i.operands.getD 0 0)
      (i.operands.getD 1 0) (i.operands.getD 2 0) s) := rfl

theorem aluResult_eq (A : Word) : aluResult .eq A = fun B C => .ok (truthWord (B == C)) := by
  funext B C
  simp [aluResult, truthWord, BitVec.toNat_inj]

theorem aluResult_gt (A : Word) :
    aluResult .gt A = fun B C => .ok (truthWord (decide (B.toNat > C.toNat))) := by
  funext B C
  simp [aluResult, truthWord]

theorem aluResult_mod (A : Word) : aluResult .mod A = modWord := by
  funext B C
  simp [aluResult, modWord, ← BitVec.toNat_inj]

theorem aluTaken_nonzeroA : aluTaken .nonzeroA = jtHolds := by
  funext A
  simp [aluTaken, jtHolds, ← BitVec.toNat_inj, bne, BEq.beq]

theorem aluTaken_zeroA : aluTaken .zeroA = jfHolds := by
  funext A
  simp [aluTaken, jfHolds, ← BitVec.toNat_inj, BEq.beq]

/-- The ALU's `low8A` keeps the byte that OUT appends. -/
theorem extractLsb'_and_255 (A : Word) : (A &&& 255).extractLsb' 0 8 = A.extractLsb' 0 8 := by
  apply BitVec.eq_of_toNat_eq
  simp [Nat.and_two_pow_sub_one_eq_mod _ 8]

/-- A raw write leaves pc, so the address after the instruction may be read before or after it. -/
theorem rawWrite_jump (A B : Word) (s : State) :
    (do let t ← rawWrite A B s; return t.jump (s.pc + 3#16)) =
      (do let t ← rawWrite A B s; return t.advance 3) := by
  unfold rawWrite
  cases classify A <;> rfl

/-- The rows of EQ, GT, ADD, MULT, MOD, AND and OR differ in the ALU operation only. -/
theorem drive_twoSource {op : AluOp} {f : Word → Word → Except Stop Word}
    (hf : aluResult op 0 = f) (a b c : Word) (s : State) :
    drive ⟨4, .dest, .always, true, op, .alu, .none, .none, .none, .seq, false⟩ a b c s =
      alu2 f a b c s := by
  simp only [drive, checkAndRead, commit, bind_assoc, bind_ok, if_true, hf]
  rfl

/-- The rows of JT and JF differ in the condition only; their ALU never fails. -/
theorem drive_branch {op : AluOp} {holds : Word → Bool} (htaken : aluTaken op = holds)
    (hop : ∀ A B, ∃ r, aluResult op A B 0 = .ok r) (a b c : Word) (s : State) :
    drive ⟨3, .source, .ifTaken, false, op, .none, .none, .none, .none, .bIf, false⟩ a b c s =
      resolve s.x a >>= fun A => branch (holds A) b s := by
  simp only [drive, checkAndRead, commit, bind_assoc, bind_ok, Bool.false_eq_true, if_false, htaken]
  refine bind_congr fun A => ?_
  cases hA : holds A with
  | true =>
    simp only [if_true, bind_assoc]
    refine bind_congr fun B => ?_
    obtain ⟨r, hr⟩ := hop A B
    simp only [hr, bind_ok, pure_bind, hA, if_true]
  | false =>
    obtain ⟨r, hr⟩ := hop A 0
    simp only [hr, bind_ok, pure_bind, hA, Bool.false_eq_true, if_false, Config.jumpTargetEager]
    rfl

/-- Settles O34: a row that several instructions share runs their shared shape; on every other row
the phases of R60, run one after the other, are the instruction's own pseudocode. -/
theorem controlSignalsImplementEveryRule : Obligations.ControlSignalsImplementEveryRule := by
  intro i s
  rw [datapath_eq_settle_drive]
  cases i with
  | add | mult | and | or => exact congrArg (settle _ s) (drive_twoSource rfl _ _ _ s)
  | eq => exact congrArg (settle _ s) (drive_twoSource (aluResult_eq 0) _ _ _ s)
  | gt => exact congrArg (settle _ s) (drive_twoSource (aluResult_gt 0) _ _ _ s)
  | mod => exact congrArg (settle _ s) (drive_twoSource (aluResult_mod 0) _ _ _ s)
  | jt =>
    exact congrArg (settle _ s) (drive_branch aluTaken_nonzeroA (fun _ _ => ⟨_, rfl⟩) _ _ _ s)
  | jf => exact congrArg (settle _ s) (drive_branch aluTaken_zeroA (fun _ _ => ⟨_, rfl⟩) _ _ _ s)
  | set | push | pop | not | rmem | wmem | jmp | call | ret | out | inp | noop | halt =>
    simp only [drive, checkAndRead, commit, signals, Instr.operands, Instr.mnemonic, aluResult,
      bind_assoc, bind_ok, pure_bind, Bool.false_eq_true, if_false, extractLsb'_and_255,
      rawWrite_jump]
    rfl

/-! ### What an instruction leaves unchanged -/

/-- A property of the next state of an instruction: it holds where nothing happens, where only the
trap record is written, and where the instruction completes. -/
theorem exec_rule {I : State → Prop} {i : Instr} {s t : State} (h : exec i s = .next t) (hs : I s)
    (htrap : ∀ cause info, I (takeTrap cause info i.operands s))
    (hcomplete : ∀ u, Completes s i u → I u.count) : I t := by
  rcases exec_cases h with ⟨u, hu, rfl⟩ | ⟨cause, info, rfl⟩ | ⟨rfl, -, -⟩
  · exact hcomplete u hu
  · exact htrap cause info
  · exact hs

/-- No register is written but the destination. -/
theorem Completes.reg_eq {i : Instr} {s u : State} (h : Completes s i u) {r : Fin 8}
    (hr : i.dest? ≠ some (regWord r)) : u.reg r = s.reg r := by
  have other : ∀ (d : Fin 8) (v : Word), i.dest? = some (regWord d) →
      (s.setReg d v).reg r = s.reg r := fun d v hd =>
    State.reg_setReg_of_ne s (by rintro rfl; exact hr hd) v
  cases h with
  | write d v hd => exact other d v hd
  | @pop d _ _ t => exact other d t rfl
  | @inp d c => exact other d (c.setWidth 16) rfl
  | _ => rfl

theorem Completes.stack_eq {i : Instr} {s u : State} (h : Completes s i u)
    (hi : i.mnemonic ∉ [.push, .pop, .call, .ret]) : u.stack = s.stack := by
  cases h with
  | push | pop | call | ret => exact absurd (by simp [Instr.mnemonic]) hi
  | _ => rfl

/-- The stack changes at its top only, by one word. -/
theorem Completes.stack_cases {i : Instr} {s u : State} (h : Completes s i u) :
    u.stack = s.stack ∨ (∃ v, u.stack = s.stack ++ [v]) ∨ ∃ v, s.stack = u.stack ++ [v] := by
  cases h with
  | push | call => exact .inr (.inl ⟨_, rfl⟩)
  | pop hs | ret hs => exact .inr (.inr ⟨_, by simp [hs]; rfl⟩)
  | _ => exact .inl rfl

theorem Completes.out_eq {i : Instr} {s u : State} (h : Completes s i u) (hi : i.mnemonic ≠ .out) :
    u.out = s.out := by
  cases h with
  | out => exact absurd rfl hi
  | _ => rfl

theorem Completes.input_eq {i : Instr} {s u : State} (h : Completes s i u)
    (hi : i.mnemonic ≠ .inp) : u.inbuf = s.inbuf ∧ u.hist = s.hist := by
  cases h with
  | inp => exact absurd rfl hi
  | _ => exact ⟨rfl, rfl⟩

/-- The cell WMEM stores in is the one its resolved operand a gives. -/
theorem Completes.heap_wmem {i : Instr} {s u : State} (h : Completes s i u) :
    u.heap = s.heap ∨ ∃ a b A B, i = .wmem a b ∧ resolve s.x a = .ok A ∧
      u.heap = s.heap.writeWord A.toNat B := by
  cases h with
  | wmem hA => exact .inr ⟨_, _, _, _, rfl, hA, rfl⟩
  | _ => exact .inl rfl

section

variable {i : Instr} {s t : State} (h : exec i s = .next t)
include h

theorem exec_trapOnlyAlone : TrapOnlyAlone s t :=
  exec_rule (I := TrapOnlyAlone s) h (.inl rfl) (fun _ _ => .inr rfl) fun _ hu => .inl hu.trap

theorem exec_paused : t.paused = s.paused :=
  exec_rule (I := fun t => t.paused = s.paused) h rfl (fun _ _ => rfl) fun _ hu => hu.paused

theorem exec_agenda : t.agenda = s.agenda :=
  exec_rule (I := fun t => t.agenda = s.agenda) h rfl (fun _ _ => rfl) fun _ hu => hu.agenda

theorem exec_sameControl (hi : i.mnemonic ≠ .halt) : SameControl s t :=
  ⟨onlyHaltSetsHalted.2.1 i s t h (by rintro rfl; exact hi rfl), exec_paused h, exec_agenda h⟩

theorem exec_sameHeap (hi : i.mnemonic ≠ .wmem) : SameHeap s t := fun n => by
  rw [onlyWmemChangesTheHeap i s t h (by rintro a b rfl; exact hi rfl)]

theorem exec_reg {r : Fin 8} (hr : i.dest? ≠ some (regWord r)) : t.reg r = s.reg r :=
  exec_rule (I := fun t => t.reg r = s.reg r) h rfl (fun _ _ => rfl) fun _ hu => hu.reg_eq hr

theorem exec_stack (hi : i.mnemonic ∉ [.push, .pop, .call, .ret]) : t.stack = s.stack :=
  exec_rule (I := fun t => t.stack = s.stack) h rfl (fun _ _ => rfl) fun _ hu => hu.stack_eq hi

theorem exec_stack_cases :
    t.stack = s.stack ∨ (∃ v, t.stack = s.stack ++ [v]) ∨ ∃ v, s.stack = t.stack ++ [v] :=
  exec_rule (I := fun t => t.stack = s.stack ∨ (∃ v, t.stack = s.stack ++ [v]) ∨
    ∃ v, s.stack = t.stack ++ [v]) h (.inl rfl) (fun _ _ => .inl rfl) fun _ hu => hu.stack_cases

theorem exec_out (hi : i.mnemonic ≠ .out) : t.out = s.out :=
  exec_rule (I := fun t => t.out = s.out) h rfl (fun _ _ => rfl) fun _ hu => hu.out_eq hi

theorem exec_input (hi : i.mnemonic ≠ .inp) : t.inbuf = s.inbuf ∧ t.hist = s.hist :=
  exec_rule (I := fun t => t.inbuf = s.inbuf ∧ t.hist = s.hist) h ⟨rfl, rfl⟩
    (fun _ _ => ⟨rfl, rfl⟩) fun _ hu => hu.input_eq hi

theorem exec_sameStreams (hi : i.mnemonic ∉ [.out, .inp]) : SameStreams s t :=
  ⟨exec_out h fun he => hi (by simp [he]), exec_input h fun he => hi (by simp [he])⟩

end

theorem exec_heap_wmem {a b : Word} {s t : State} (h : exec (.wmem a b) s = .next t) :
    t.heap = s.heap ∨ ∃ A B, resolve s.x a = .ok A ∧ t.heap = s.heap.writeWord A.toNat B := by
  refine exec_rule (I := fun t => t.heap = s.heap ∨ ∃ A B, resolve s.x a = .ok A ∧
    t.heap = s.heap.writeWord A.toNat B) h (.inl rfl) (fun _ _ => .inl rfl) fun u hu => ?_
  rcases hu.heap_wmem with hheap | ⟨_, _, A, B, hi, hA, hheap⟩
  · exact .inl hheap
  · cases hi
    exact .inr ⟨A, B, hA, hheap⟩

/-! ### Frames of the instructions (R61) -/

/-- Settles O25: the ten write one register, the one their operand a names. -/
theorem registerWritersFrame : Obligations.RegisterWritersFrame := by
  intro s t i a b c hi h
  have hdest : i.dest? = some a :=
    List.eq_of_mem_replicate (n := 10) (List.mem_map_of_mem (f := Instr.dest?) hi)
  have hm : i.mnemonic ∈ [.set, .eq, .gt, .add, .mult, .mod, .and, .or, .not, .rmem] :=
    List.mem_map_of_mem (f := Instr.mnemonic) hi
  exact ⟨fun r hr => exec_reg h (by simpa [hdest] using hr),
    exec_sameHeap h (ne_of_mem_of_not_mem hm (by decide)),
    exec_stack h (List.inter_eq_nil_iff_disjoint.1 rfl hm),
    exec_sameStreams h (List.inter_eq_nil_iff_disjoint.1 rfl hm),
    exec_sameControl h (ne_of_mem_of_not_mem hm (by decide)), exec_trapOnlyAlone h⟩

/-- Settles O26: of the four only POP has a destination. -/
theorem stackInstructionsFrame : Obligations.StackInstructionsFrame := by
  intro s t i a hi h
  have hm : i.mnemonic ∈ [.push, .pop, .call, .ret] := List.mem_map_of_mem (f := Instr.mnemonic) hi
  have hpop : ∀ r, i.dest? = some (regWord r) → i = .pop (regWord r) := by
    intro r hr
    simp only [List.mem_cons, List.not_mem_nil, or_false] at hi
    rcases hi with rfl | rfl | rfl | rfl
    · cases hr
    · cases hr; rfl
    · cases hr
    · cases hr
  exact ⟨fun r hr => exec_reg h (mt (hpop r) hr),
    exec_sameHeap h (ne_of_mem_of_not_mem hm (by decide)),
    exec_sameStreams h (List.inter_eq_nil_iff_disjoint.1 rfl hm),
    exec_sameControl h (ne_of_mem_of_not_mem hm (by decide)), exec_trapOnlyAlone h,
    exec_stack_cases h⟩

/-- Settles O27: none of the five has a destination, and none uses the stack or a stream. -/
theorem jumpsNoopHaltFrame : Obligations.JumpsNoopHaltFrame := by
  intro s t i a b hi h
  have hdest : i.dest? = none :=
    List.eq_of_mem_replicate (n := 5) (List.mem_map_of_mem (f := Instr.dest?) hi)
  have hm : i.mnemonic ∈ [.jmp, .jt, .jf, .noop, .halt] :=
    List.mem_map_of_mem (f := Instr.mnemonic) hi
  exact ⟨fun r => exec_reg h (by simp [hdest]),
    exec_sameHeap h (ne_of_mem_of_not_mem hm (by decide)),
    exec_stack h (List.inter_eq_nil_iff_disjoint.1 rfl hm),
    exec_sameStreams h (List.inter_eq_nil_iff_disjoint.1 rfl hm), exec_paused h, exec_agenda h,
    onlyHaltSetsHalted.2.1 i s t h, exec_trapOnlyAlone h⟩

/-- Settles O28: the heap is as before, or one word is stored in the cell that a resolves to. -/
theorem wmemFrame : Obligations.WmemFrame := by
  intro s t a b hw h
  refine ⟨fun r => exec_reg h (by simp [Instr.dest?]), exec_stack h (by simp [Instr.mnemonic]),
    exec_sameStreams h (by simp [Instr.mnemonic]), exec_sameControl h (by simp [Instr.mnemonic]),
    exec_trapOnlyAlone h, fun A hA n hlow hhigh => ?_, fun ha n => ?_⟩
  · rcases exec_heap_wmem h with hheap | ⟨A', B, hA', hheap⟩
    · rw [hheap]
    · obtain rfl := Except.ok.inj (hA.symm.trans hA')
      rw [hheap, Memory.readByte_writeWord hw (resolve_ok_lt hA), if_neg hlow, if_neg hhigh]
  · rcases exec_heap_wmem h with hheap | ⟨A, B, hA, -⟩
    · rw [hheap]
    · exact absurd hA (ha A)

/-- Settles O29: of the two only IN has a destination, and each has its own side of the streams. -/
theorem streamInstructionsFrame : Obligations.StreamInstructionsFrame := by
  intro s t i a hi h
  have hm : i.mnemonic ∈ [.out, .inp] := List.mem_map_of_mem (f := Instr.mnemonic) hi
  have hin : ∀ r, i.dest? = some (regWord r) → i = .inp (regWord r) := by
    intro r hr
    simp only [List.mem_cons, List.not_mem_nil, or_false] at hi
    rcases hi with rfl | rfl
    · cases hr
    · cases hr; rfl
  refine ⟨fun r hr => exec_reg h (mt (hin r) hr),
    exec_sameHeap h (ne_of_mem_of_not_mem hm (by decide)),
    exec_stack h (List.inter_eq_nil_iff_disjoint.1 rfl hm),
    exec_sameControl h (ne_of_mem_of_not_mem hm (by decide)), exec_trapOnlyAlone h, ?_, ?_⟩
  · rintro rfl
    exact exec_input h (by simp [Instr.mnemonic])
  · rintro rfl
    exact exec_out h (by simp [Instr.mnemonic])

end Sys2Proof.Machine

/-! ### Moves and the stack (40_move_stack.md) -/

namespace Sys2Proof.Machine

open Sys2Proof.Claims

/-! ### Pseudocode that raises -/

/-- The pseudocode m stops by raising a cause and info that P allows. -/
def Raises (P : TrapCause → Option Word → Prop) (m : Except Stop State) : Prop :=
  ∃ cause info, m = .error (.raise cause info) ∧ P cause info

/-- An instruction whose pseudocode raises traps with what was raised. -/
theorem trapsWith_of_raises {i : Instr} {s : State} {m : Except Stop State} {ws : List Word}
    {P : TrapCause → Option Word → Prop} (hexec : exec i s = settle ws s m) (hm : Raises P m) :
    TrapsWith i s P := by
  obtain ⟨cause, info, rfl, hP⟩ := hm
  exact ⟨_, _, hexec, rfl, hP⟩

section

variable {P : TrapCause → Option Word → Prop}

/-- A destination check raises with its fault, or leaves the raising to the rest. -/
theorem Raises.destination_bind {a : Word} {k : Fin 8 → Except Stop State}
    (hP : ∀ cause info, DestFault a cause info → P cause info)
    (hk : ∀ d, destOk a = true → Raises P (k d)) : Raises P (destination a >>= k) := by
  cases hd : destination a with
  | ok d => exact hk d (destOk_iff.2 ⟨d, destination_eq_ok.1 hd⟩)
  | error e =>
    obtain ⟨ha, rfl⟩ := destination_eq_error.1 hd
    exact ⟨_, _, rfl, hP _ _ ⟨ha, rfl, rfl⟩⟩

/-- A resolution raises with its fault, or leaves the raising to the rest. -/
theorem Raises.resolve_bind {x : RegFile} {V : Word} {k : Word → Except Stop State}
    (hP : ∀ cause info, SourceFault x V cause info → P cause info)
    (hk : ∀ W, resolve x V = .ok W → Raises P (k W)) : Raises P (resolve x V >>= k) := by
  cases hV : resolve x V with
  | ok W => exact hk W hV
  | error e =>
    cases e with
    | raise cause info => exact ⟨cause, info, rfl, hP cause info hV⟩
    | stall => exact absurd hV resolve_ne_stall

/-- Reading the top word raises StackUnderflow, or leaves the raising to the rest. -/
theorem Raises.topWord_bind {s : State} {k : Word → Except Stop State}
    (hP : s.stack = [] → P .stackUnderflow none)
    (hk : ∀ below v, s.stack = below ++ [v] → Raises P (k v)) : Raises P (topWord s >>= k) := by
  cases hv : topWord s with
  | ok v => exact hk _ v (topWord_ok_split hv)
  | error e =>
    obtain ⟨hs, rfl⟩ := topWord_eq_error.1 hv
    exact ⟨_, _, rfl, hP hs⟩

end

/-! ### SET, PUSH and POP when they complete -/

theorem topWord_of_stack {s : State} {below : List Word} {v : Word} (hs : s.stack = below ++ [v]) :
    topWord s = .ok v :=
  topWord_eq_ok.2 (by simp [hs])

theorem State.dropTop_of_stack {s : State} {below : List Word} {v : Word}
    (hs : s.stack = below ++ [v]) : s.dropTop = { s with stack := below } := by
  rw [State.dropTop, hs, List.dropLast_concat]

theorem exec_set_regWord {s : State} {b B : Word} (d : Fin 8) (hB : resolve s.x b = .ok B) :
    exec (.set (regWord d) b) s = .next ((s.setReg d B).advance 3).count := by
  rw [exec, execSet, destination_regWord, bind_ok, hB]
  rfl

theorem exec_push {s : State} {a A : Word} (hA : resolve s.x a = .ok A) :
    exec (.push a) s = .next ((s.push A).advance 2).count := by
  rw [exec, execPush, hA]
  rfl

theorem exec_pop_regWord {s : State} {below : List Word} {v t : Word} (d : Fin 8)
    (hs : s.stack = below ++ [v]) (ht : resolve s.x v = .ok t) :
    exec (.pop (regWord d)) s = .next ((s.dropTop.setReg d t).advance 2).count := by
  rw [exec, execPop, destination_regWord, bind_ok, topWord_of_stack hs, bind_ok, ht]
  rfl

/-! ### The rules of SET, PUSH and POP -/

/-- Settles O12: past the destination check and the resolution, SET always completes. -/
theorem setWritesResolvedValue : Obligations.SetWritesResolvedValue := by
  intro s a b
  refine ⟨decode_encode_append (.set a b), ?_, fun h => ?_⟩
  · rintro d B rfl hB
    exact exec_set_regWord d hB
  · refine trapsWith_of_raises rfl <| .destination_bind (fun _ _ => .inl) fun d hgood =>
      .resolve_bind (fun _ _ => .inr) fun B hB => ?_
    rcases h with hbad | hb
    · simp [hgood] at hbad
    · exact absurd hB (hb B)

/-- Settles O13: past the resolution, PUSH always completes. -/
theorem pushAppendsResolvedValue : Obligations.PushAppendsResolvedValue := fun _ a =>
  ⟨decode_encode_append (.push a), fun _ => exec_push, fun ha => trapsWith_of_raises rfl <|
    .resolve_bind (fun _ _ => id) fun A hA => absurd hA (ha A)⟩

/-- Settles O14: past the destination check, the underflow check and the resolution of the top
word, POP always completes. -/
theorem popWritesResolvedTop : Obligations.PopWritesResolvedTop := by
  intro s a
  refine ⟨decode_encode_append (.pop a), ?_, fun hgood hnil => ?_, fun h => ?_⟩
  · rintro d below v t rfl hs ht
    rw [exec_pop_regWord d hs ht, State.dropTop_of_stack hs]
    rfl
  · refine trapsWith_of_raises rfl <|
      .destination_bind (fun _ _ hdest => absurd hgood (by simp [hdest.1])) fun d _ =>
        .topWord_bind (fun _ => ⟨rfl, rfl⟩) fun below v hs => ?_
    simp [hnil] at hs
  · refine trapsWith_of_raises rfl <| .destination_bind (fun _ _ => .inl) fun d hgood =>
      .topWord_bind (fun hnil => .inr (.inl ⟨hnil, rfl, rfl⟩)) fun below v hs =>
        .resolve_bind (fun _ _ hv => .inr (.inr ⟨below, v, hs, hv⟩)) fun t ht => ?_
    rcases h with hbad | hnil | ⟨below', v', hs', hv⟩
    · simp [hgood] at hbad
    · simp [hnil] at hs
    · obtain rfl : v = v' :=
        Except.ok.inj ((topWord_of_stack hs).symm.trans (topWord_of_stack hs'))
      exact absurd ht (hv t)

/-- Settles O52: PUSH leaves a literal on top, and a literal resolves to itself. -/
theorem pushThenPopRoundTrips : Obligations.PushThenPopRoundTrips := by
  intro s t a A d hA hpush
  obtain rfl := Host.Outcome.next.inj ((exec_push hA).symm.trans hpush)
  have hlit : resolve s.x A = .ok A := resolve_literal s.x (resolve_ok_lt hA)
  exact ⟨_, exec_pop_regWord (below := s.stack) d rfl hlit, State.reg_setReg_self _ d A,
    by simp, fun r hr => State.reg_setReg_of_ne _ hr.symm A⟩

end Sys2Proof.Machine

/-! ### Comparison (41_compare.md) -/

namespace Sys2Proof.Machine

open Sys2Proof.Claims

/-! ### The two-source shape -/

/-- The shape of the two-source instructions when its sources resolve and its result is a value. -/
theorem alu2_regWord {f : Word → Word → Except Stop Word} {b c B C r : Word} {s : State}
    (d : Fin 8) (hB : resolve s.x b = .ok B) (hC : resolve s.x c = .ok C) (hr : f B C = .ok r) :
    alu2 f (regWord d) b c s = .ok ((s.setReg d r).advance 4) := by
  rw [alu2, destination_regWord, bind_ok, hB, bind_ok, hC, bind_ok, hr]
  rfl

/-- The shape of the two-source instructions when one of its operand words is at fault: whichever
check meets a fault first raises it, and no more checks than these three come before the result. -/
theorem Raises.alu2 {f : Word → Word → Except Stop Word} {a b c : Word} {s : State}
    (h : destOk a = false ∨ Unresolved s.x b ∨ Unresolved s.x c) :
    Raises (fun cause info => DestFault a cause info ∨ SourceFault s.x b cause info ∨
      SourceFault s.x c cause info) (Machine.alu2 f a b c s) := by
  refine .destination_bind (fun _ _ => .inl) fun d hgood =>
    .resolve_bind (fun _ _ hb => .inr (.inl hb)) fun B hB =>
      .resolve_bind (fun _ _ hc => .inr (.inr hc)) fun C hC => ?_
  rcases h with hbad | hb | hc
  · simp [hgood] at hbad
  · exact absurd hB (hb B)
  · exact absurd hC (hc C)

/-- An instruction of the two-source shape whose result never fails obeys the two-source rule of
the number that its result word is. -/
theorem twoSourceRule_of_alu2 {mk : Word → Word → Word → Instr} {op : Word}
    {result : Word → Word → Word} {f : Nat → Nat → Nat}
    (hencode : ∀ a b c, encode (mk a b c) = [op, a, b, c])
    (hexec : ∀ a b c s,
      exec (mk a b c) s = settle [a, b, c] s (alu2 (fun B C => .ok (result B C)) a b c s))
    (hresult : ∀ B C, result B C = BitVec.ofNat 16 (f B.toNat C.toNat)) :
    TwoSourceRule mk op f := by
  intro s a b c
  refine ⟨fun rest => ?_, ?_, fun h => trapsWith_of_raises (hexec a b c s) (.alu2 h)⟩
  · have hdecode := decode_encode_append (mk a b c) rest
    rwa [hencode] at hdecode
  · rintro d B C rfl hB hC
    rw [hexec, alu2_regWord d hB hC rfl, hresult]
    rfl

/-! ### The rules of EQ and GT -/

/-- The truth word of a proposition is the number 1 or 0 that the spec writes. -/
theorem truthWord_decide (p : Prop) [Decidable p] :
    truthWord (decide p) = BitVec.ofNat 16 (if p then 1 else 0) := by
  by_cases hp : p <;> simp [truthWord, hp]

/-- Settles O9: EQ and GT have the two-source shape, and their result is a truth word; words are
equal exactly when the numbers they hold are. -/
theorem eqGtWriteOneOrZero : Obligations.EqGtWriteOneOrZero :=
  ⟨twoSourceRule_of_alu2 (fun _ _ _ => rfl) (fun _ _ _ _ => rfl) fun B C => by
      rw [← truthWord_decide, beq_eq_decide, decide_eq_decide.2 BitVec.toNat_inj],
    twoSourceRule_of_alu2 (fun _ _ _ => rfl) (fun _ _ _ _ => rfl) fun _ _ => truthWord_decide _⟩

end Sys2Proof.Machine

/-! ### Jumps (42_jump.md) -/

namespace Sys2Proof.Machine

open Sys2Proof.Claims

/-! ### Conditions -/

theorem jtHolds_eq_true {A : Word} : jtHolds A = true ↔ A.toNat ≠ 0 := by
  simp [jtHolds, ← BitVec.toNat_inj]

theorem jtHolds_eq_false {A : Word} : jtHolds A = false ↔ A.toNat = 0 := by
  simp [jtHolds, ← BitVec.toNat_inj]

theorem jfHolds_eq_true {A : Word} : jfHolds A = true ↔ A.toNat = 0 := by
  simp [jfHolds, ← BitVec.toNat_inj]

theorem jfHolds_eq_false {A : Word} : jfHolds A = false ↔ A.toNat ≠ 0 := by
  simp [jfHolds, ← BitVec.toNat_inj]

section

variable {s : State} {a b A B : Word} {ws : List Word} {taken : Bool}

/-! ### Targets and conditions that resolve -/

theorem exec_jmp (hA : resolve s.x a = .ok A) : exec (.jmp a) s = .next (s.jump A).count := by
  rw [exec, execJmp, hA]
  rfl

/-- JT with a resolved condition is the branch its condition selects. -/
theorem exec_jt (hA : resolve s.x a = .ok A) (htaken : jtHolds A = taken) :
    exec (.jt a b) s = settle [a, b] s (branch taken b s) := by
  rw [exec, execJt, hA, bind_ok, htaken]

/-- JF with a resolved condition is the branch its condition selects. -/
theorem exec_jf (hA : resolve s.x a = .ok A) (htaken : jfHolds A = taken) :
    exec (.jf a b) s = settle [a, b] s (branch taken b s) := by
  rw [exec, execJf, hA, bind_ok, htaken]

theorem settle_branch_taken (hB : resolve s.x b = .ok B) :
    settle ws s (branch true b s) = .next (s.jump B).count := by
  rw [branch, if_pos rfl, hB]
  rfl

/-- An untaken branch completes whatever its target word is (log 8). -/
theorem settle_branch_untaken : settle ws s (branch false b s) = .next (s.advance 3).count := rfl

/-! ### Targets and conditions that do not resolve -/

/-- Pseudocode that begins with resolving a word that does not resolve raises the word's fault. -/
theorem Raises.of_unresolved {x : RegFile} {V : Word} {k : Word → Except Stop State}
    (hV : Unresolved x V) : Raises (SourceFault x V) (resolve x V >>= k) :=
  .resolve_bind (fun _ _ => id) fun W hW => absurd hW (hV W)

theorem Raises.branch_taken (hb : Unresolved s.x b) :
    Raises (SourceFault s.x b) (branch true b s) :=
  .of_unresolved hb

end

/-! ### The rules of JMP, JT and JF -/

/-- Settles O15: past the resolution, JMP always completes, and what resolves is a literal. -/
theorem jmpSetsPcToResolvedTarget : Obligations.JmpSetsPcToResolvedTarget := fun _ a =>
  ⟨decode_encode_append (.jmp a), fun _ hA => ⟨exec_jmp hA, resolve_ok_lt hA⟩,
    fun ha => trapsWith_of_raises rfl (.of_unresolved ha)⟩

/-- Settles O16: a resolved condition selects the branch, and only the taken branch resolves its
target. -/
theorem conditionalJumpsTestResolvedOperand : Obligations.ConditionalJumpsTestResolvedOperand := by
  intro s a b A hA
  refine ⟨fun rest => ⟨decode_encode_append (.jt a b) rest, decode_encode_append (.jf a b) rest⟩,
    fun B hB => ⟨fun hne => ?_, fun hzero => ?_⟩, fun hzero => ?_, fun hne => ?_,
    fun hb => ⟨fun hne => ?_, fun hzero => ?_⟩⟩
  · exact (exec_jt hA (jtHolds_eq_true.2 hne)).trans (settle_branch_taken hB)
  · exact (exec_jf hA (jfHolds_eq_true.2 hzero)).trans (settle_branch_taken hB)
  · exact (exec_jt hA (jtHolds_eq_false.2 hzero)).trans settle_branch_untaken
  · exact (exec_jf hA (jfHolds_eq_false.2 hne)).trans settle_branch_untaken
  · exact trapsWith_of_raises (exec_jt hA (jtHolds_eq_true.2 hne)) (.branch_taken hb)
  · exact trapsWith_of_raises (exec_jf hA (jfHolds_eq_true.2 hzero)) (.branch_taken hb)

/-- Settles O17: JT and JF resolve their condition before anything else. -/
theorem conditionalJumpsTrapOnBadCondition : Obligations.ConditionalJumpsTrapOnBadCondition :=
  fun _ _ _ ha => ⟨trapsWith_of_raises rfl (.of_unresolved ha),
    trapsWith_of_raises rfl (.of_unresolved ha)⟩

end Sys2Proof.Machine

/-! ### Arithmetic and logic (43_alu.md) -/

namespace Sys2Proof.Machine

open Sys2Proof.Claims

/-! ### What the results are as numbers -/

theorem addWord_eq (B C : Word) : addWord B C = BitVec.ofNat 16 ((B.toNat + C.toNat) % 32768) := rfl

theorem multWord_eq (B C : Word) : multWord B C = BitVec.ofNat 16 (B.toNat * C.toNat % 32768) := rfl

theorem andWord_eq (B C : Word) : andWord B C = BitVec.ofNat 16 (B.toNat &&& C.toNat) := by
  simp [andWord]

theorem orWord_eq (B C : Word) : orWord B C = BitVec.ofNat 16 (B.toNat ||| C.toNat) := by
  simp [orWord]

theorem modWord_of_ne_zero (B : Word) {C : Word} (hC : C.toNat ≠ 0) :
    modWord B C = .ok (BitVec.ofNat 16 (B.toNat % C.toNat)) :=
  if_neg (mt (congrArg BitVec.toNat) hC)

theorem modWord_of_eq_zero (B : Word) {C : Word} (hC : C.toNat = 0) :
    modWord B C = .error (.raise .arithmeticError none) :=
  if_pos (BitVec.eq_of_toNat_eq hC)

/-- On literals, keeping the low 15 bits of the complement is subtracting from 32767. -/
theorem notWord_eq {B : Word} (hB : B.toNat < 32768) :
    notWord B = BitVec.ofNat 16 (32767 - B.toNat) := by
  apply BitVec.eq_of_toNat_eq
  have hlow : (notWord B).toNat = (65535 - B.toNat) % 32768 := by
    rw [notWord, BitVec.toNat_and, BitVec.toNat_not]
    exact Nat.and_two_pow_sub_one_eq_mod _ 15
  rw [hlow, BitVec.toNat_ofNat]
  omega

/-! ### The rules of ADD, MULT, AND and OR -/

/-- Settles O6: ADD has the two-source shape, and its result is the reduced sum. -/
theorem addWritesSumModulo32768 : Obligations.AddWritesSumModulo32768 :=
  twoSourceRule_of_alu2 (fun _ _ _ => rfl) (fun _ _ _ _ => rfl) addWord_eq

/-- Settles O7: MULT has the two-source shape, and its result is the reduced exact product. -/
theorem multWritesProductModulo32768 : Obligations.MultWritesProductModulo32768 :=
  twoSourceRule_of_alu2 (fun _ _ _ => rfl) (fun _ _ _ _ => rfl) multWord_eq

/-- Settles O8: AND and OR have the two-source shape, and their results are the bitwise ones. -/
theorem andOrWriteBitwiseResults : Obligations.AndOrWriteBitwiseResults :=
  ⟨twoSourceRule_of_alu2 (fun _ _ _ => rfl) (fun _ _ _ _ => rfl) andWord_eq,
    twoSourceRule_of_alu2 (fun _ _ _ => rfl) (fun _ _ _ _ => rfl) orWord_eq⟩

/-! ### The rules of MOD and NOT -/

/-- The shape of the two-source instructions when its sources resolve and its result fails. -/
theorem alu2_regWord_error {f : Word → Word → Except Stop Word} {b c B C : Word} {s : State}
    {e : Stop} (d : Fin 8) (hB : resolve s.x b = .ok B) (hC : resolve s.x c = .ok C)
    (he : f B C = .error e) : alu2 f (regWord d) b c s = .error e := by
  rw [alu2, destination_regWord, bind_ok, hB, bind_ok, hC, bind_ok, he, bind_error]

/-- Settles O10: MOD has the two-source shape, and its result fails exactly on a divisor of 0. -/
theorem modWritesRemainderOrTraps : Obligations.ModWritesRemainderOrTraps := by
  intro s a b c
  refine ⟨decode_encode_append (.mod a b c), ?_, ?_, fun h => trapsWith_of_raises rfl (.alu2 h)⟩
  · rintro d B C rfl hB hC hne
    rw [exec, execMod, alu2_regWord d hB hC (modWord_of_ne_zero B hne)]
    rfl
  · rintro d B C rfl hB hC hzero
    exact trapsWith_of_raises rfl
      ⟨_, _, alu2_regWord_error d hB hC (modWord_of_eq_zero B hzero), rfl, rfl⟩

/-- Settles O11: past the destination check and the resolution, NOT always completes, and what
resolves is a literal. -/
theorem notWritesFifteenBitComplement : Obligations.NotWritesFifteenBitComplement := by
  intro s a b
  refine ⟨decode_encode_append (.not a b), ?_, fun h => ?_⟩
  · rintro d B rfl hB
    rw [exec, execNot, destination_regWord, bind_ok, hB, bind_ok, notWord_eq (resolve_ok_lt hB)]
    rfl
  · refine trapsWith_of_raises rfl <| .destination_bind (fun _ _ => .inl) fun d hgood =>
      .resolve_bind (fun _ _ => .inr) fun B hB => ?_
    rcases h with hbad | hb
    · simp [hgood] at hbad
    · exact absurd hB (hb B)

end Sys2Proof.Machine

/-! ### Raw memory (44_rawmem.md) -/

namespace Sys2Proof.Machine

open Sys2Proof.Claims

/-! ### RMEM and WMEM when they complete -/

/-- What resolves is a heap index, so the raw read is of the heap (R38). -/
theorem exec_rmem_regWord {s : State} {b B t : Word} (d : Fin 8) (hB : resolve s.x b = .ok B)
    (ht : resolve s.x (memRead s B.toNat) = .ok t) :
    exec (.rmem (regWord d) b) s = .next ((s.setReg d t).advance 3).count := by
  rw [exec, execRmem, destination_regWord, bind_ok, hB, bind_ok, rawRead_heap (resolve_ok_lt hB),
    bind_ok, ht]
  rfl

/-- What resolves is a heap index, so the raw write is to the heap (R38). -/
theorem exec_wmem {s : State} {a b A B : Word} (hA : resolve s.x a = .ok A)
    (hB : resolve s.x b = .ok B) :
    exec (.wmem a b) s = .next ((s.memWrite A.toNat B).advance 3).count := by
  rw [exec, execWmem, hA, bind_ok, hB, bind_ok, rawWrite_heap (resolve_ok_lt hA)]
  rfl

/-! ### The rules of RMEM and WMEM -/

/-- Settles O18: past the destination check and the resolution of the index, the raw read always
succeeds, and past the resolution of the loaded word, RMEM always completes. -/
theorem rmemWritesResolvedHeapWord : Obligations.RmemWritesResolvedHeapWord := by
  intro s a b
  refine ⟨decode_encode_append (.rmem a b), ?_, fun h => ?_⟩
  · rintro d B t rfl hB ht
    exact exec_rmem_regWord d hB ht
  · refine trapsWith_of_raises rfl <| .destination_bind (fun _ _ => .inl) fun d hgood =>
      .resolve_bind (fun _ _ hb => .inr (.inl hb)) fun B hB => ?_
    rw [rawRead_heap (resolve_ok_lt hB), bind_ok]
    refine .resolve_bind (fun _ _ hword => .inr (.inr ⟨B, hB, hword⟩)) fun t ht => ?_
    rcases h with hbad | hb | ⟨B', hB', hword⟩
    · simp [hgood] at hbad
    · exact absurd hB (hb B)
    · obtain rfl := Except.ok.inj (hB.symm.trans hB')
      exact absurd ht (hword t)

/-- Settles O19: past both resolutions, WMEM always completes with one store in a heap cell. -/
theorem wmemStoresOneHeapCell : Obligations.WmemStoresOneHeapCell := by
  intro s a b hw
  refine ⟨decode_encode_append (.wmem a b), fun A B hA hB => ?_, fun h => ?_⟩
  · have hlt := resolve_ok_lt hA
    obtain ⟨hcell, hcells, -⟩ := heapWriteChangesOneCell s A.toNat B hw hlt
    refine ⟨_, exec_wmem hA hB, rfl, hcell, hcells, fun n hlow hhigh => ?_⟩
    exact (Memory.readByte_writeWord hw hlt B n).trans ((if_neg hlow).trans (if_neg hhigh))
  · refine trapsWith_of_raises rfl <| .resolve_bind (fun _ _ => .inl) fun A hA =>
      .resolve_bind (fun _ _ => .inr) fun B hB => ?_
    rcases h with ha | hb
    · exact absurd hA (ha A)
    · exact absurd hB (hb B)

end Sys2Proof.Machine

/-! ### Subroutines (45_subroutine.md) -/

namespace Sys2Proof.Machine

open Sys2Proof.Claims

/-! ### CALL and RET when they complete -/

theorem exec_call {s : State} {a A : Word} (hA : resolve s.x a = .ok A) :
    exec (.call a) s = .next ((s.push (s.pc + 2)).jump A).count := by
  rw [exec, execCall, hA]
  rfl

theorem exec_ret {s : State} {below : List Word} {v : Word} (hs : s.stack = below ++ [v]) :
    exec .ret s = .next ({ s with stack := below }.jump v).count := by
  rw [exec, execRet, topWord_of_stack hs, State.dropTop_of_stack hs]
  rfl

/-! ### The rules of CALL and RET -/

/-- Settles O20: past the resolution, CALL always completes, for the push never fails (log 15). -/
theorem callPushesReturnAddress : Obligations.CallPushesReturnAddress := fun _ a =>
  ⟨decode_encode_append (.call a), fun _ => exec_call,
    fun ha => trapsWith_of_raises rfl (.of_unresolved ha)⟩

/-- Settles O21: past the underflow check, RET always completes with the word as it stands on the
stack. -/
theorem retLoadsPoppedWord : Obligations.RetLoadsPoppedWord := by
  intro s
  refine ⟨decode_encode_append .ret, fun _ _ => exec_ret, fun hnil => ?_⟩
  refine trapsWith_of_raises rfl <| .topWord_bind (fun _ => ⟨rfl, rfl⟩) fun below v hs => ?_
  simp [hnil] at hs

/-- A CALL that leaves no trap record has resolved its target. -/
theorem resolve_of_exec_call_untrapped {s t : State} {a : Word} (h : exec (.call a) s = .next t)
    (ht : t.trap = none) : ∃ A, resolve s.x a = .ok A := by
  by_contra! ha
  obtain ⟨u, r, hu, hr, -⟩ := (callPushesReturnAddress s a).2.2 ha
  obtain rfl := Host.Outcome.next.inj (h.symm.trans hu)
  simp [ht] at hr

/-- Settles O51: CALL leaves its return address on top, and RET loads the top word as it is. -/
theorem callThenRetReturns : Obligations.CallThenRetReturns := by
  intro s t a hcall ht
  obtain ⟨A, hA⟩ := resolve_of_exec_call_untrapped hcall ht
  obtain rfl := Host.Outcome.next.inj ((exec_call hA).symm.trans hcall)
  exact ⟨_, exec_ret (below := s.stack) rfl, rfl, rfl, rfl, rfl, rfl⟩

end Sys2Proof.Machine

/-! ### Streams and the system (46_io_system.md) -/

namespace Sys2Proof.Machine

open Sys2Proof.Claims

/-! ### OUT and IN when they complete, IN when it stalls -/

/-- The model emits a bit field of the operand, the rule R110 the operand modulo 256. -/
theorem extractLsb'_zero_eight (A : Word) :
    A.extractLsb' 0 8 = BitVec.ofNat 8 (A.toNat % 256) := by
  apply BitVec.eq_of_toNat_eq
  simp

theorem inputItem_of_inbuf {s : State} {c : Byte} {later : List Byte} (hi : s.inbuf = c :: later) :
    inputItem s = .ok c :=
  inputItem_eq_ok.2 ⟨later, hi⟩

theorem State.consume_of_inbuf {s : State} {c : Byte} {later : List Byte}
    (hi : s.inbuf = c :: later) :
    s.consume c = { s with inbuf := later, hist := s.hist ++ [c] } := by
  rw [State.consume, hi, List.tail_cons]

theorem exec_out_of_resolve {s : State} {a A : Word} (hA : resolve s.x a = .ok A) :
    exec (.out a) s = .next ((s.emit (BitVec.ofNat 8 (A.toNat % 256))).advance 2).count := by
  rw [exec, execOut, hA, ← extractLsb'_zero_eight]
  rfl

theorem exec_inp_regWord {s : State} {c : Byte} {later : List Byte} (d : Fin 8)
    (hi : s.inbuf = c :: later) :
    exec (.inp (regWord d)) s =
      .next (((s.consume c).setReg d (BitVec.ofNat 16 c.toNat)).advance 2).count := by
  rw [exec, execIn, destination_regWord, bind_ok, inputItem_of_inbuf hi, BitVec.ofNat_toNat]
  rfl

theorem exec_inp_regWord_of_inbuf_nil {s : State} (d : Fin 8) (hi : s.inbuf = []) :
    exec (.inp (regWord d)) s = .next s := by
  rw [exec, execIn, destination_regWord, bind_ok, inputItem_eq_error.2 ⟨hi, rfl⟩]
  rfl

/-! ### The rules of OUT, IN, NOOP and HALT -/

/-- Settles O22: past the resolution, OUT always completes, for the append never fails (log 15). -/
theorem outAppendsLowByte : Obligations.OutAppendsLowByte := fun _ a =>
  ⟨decode_encode_append (.out a), fun _ => exec_out_of_resolve,
    fun ha => trapsWith_of_raises rfl (.of_unresolved ha)⟩

/-- Settles O23: past the destination check, IN completes or stalls as `inbuf` has an item or not;
a destination that fails the check raises before `inbuf` is looked at. -/
theorem inConsumesOneItemOrStalls : Obligations.InConsumesOneItemOrStalls := by
  intro s a
  refine ⟨decode_encode_append (.inp a), ?_, fun hgood hnil => ?_, fun hbad => ?_⟩
  · rintro d c later rfl hi
    rw [exec_inp_regWord d hi, State.consume_of_inbuf hi]
    rfl
  · obtain ⟨d, rfl⟩ := destOk_iff.1 hgood
    exact exec_inp_regWord_of_inbuf_nil d hnil
  · refine trapsWith_of_raises rfl <|
      .destination_bind (fun _ _ hdest => hdest.2) fun d hgood => ?_
    simp [hgood] at hbad

/-- Settles O24: NOOP and HALT check nothing, so their pseudocode always completes. -/
theorem noopAdvancesAndHaltHalts : Obligations.NoopAdvancesAndHaltHalts := fun _ =>
  ⟨fun rest => ⟨decode_encode_append .noop rest, decode_encode_append .halt rest⟩, rfl, rfl⟩

end Sys2Proof.Machine

/-! ### Exceptions and the host (60_exceptions.md) -/

namespace Sys2Proof.Machine

open Sys2Proof.Claims

/-! ### The causes an instruction can record (R121) -/

/-- What resolving a source word, or a word to be written, can raise. -/
def resolveCauses : List TrapCause := [.addressingViolation, .registerCycle]

/-- The causes of the table of R121, by instruction. -/
def trapCauses : Instr → List TrapCause
  | .halt => []
  | .noop => []
  | .ret => [.stackUnderflow]
  | .inp _ => [.addressingViolation]
  | .pop _ => .stackUnderflow :: resolveCauses
  | .mod _ _ _ => .arithmeticError :: resolveCauses
  | _ => resolveCauses

/-- The pseudocode m, run from s, leaves the trap record alone when it completes, and raises only
the given causes. -/
def RaisesOnly (causes : List TrapCause) (s : State) (m : Except Stop State) : Prop :=
  (∀ u, m = .ok u → u.trap = s.trap) ∧ ∀ cause info, m = .error (.raise cause info) → cause ∈ causes

section

variable {causes : List TrapCause} {s : State}

theorem RaisesOnly.ok {u : State} (h : u.trap = s.trap) : RaisesOnly causes s (.ok u) :=
  ⟨fun _ hu => Except.ok.inj hu ▸ h, fun _ _ he => by cases he⟩

/-- An access that raises only the given causes, then the rest. -/
theorem RaisesOnly.bind {α : Type} {m : Except Stop α} {k : α → Except Stop State}
    (hm : ∀ cause info, m = .error (.raise cause info) → cause ∈ causes)
    (hk : ∀ v, m = .ok v → RaisesOnly causes s (k v)) : RaisesOnly causes s (m >>= k) := by
  cases m with
  | ok v => exact hk v rfl
  | error e =>
    refine ⟨fun u hu => ?_, fun cause info he => hm cause info ?_⟩
    · cases hu
    · cases he
      rfl

theorem RaisesOnly.destination_bind {a : Word} {k : Fin 8 → Except Stop State}
    (hcauses : .addressingViolation ∈ causes) (hk : ∀ d, RaisesOnly causes s (k d)) :
    RaisesOnly causes s (destination a >>= k) :=
  .bind (fun _ _ h => by cases (destination_eq_error.1 h).2; exact hcauses) fun d _ => hk d

theorem RaisesOnly.resolve_bind {V : Word} {k : Word → Except Stop State}
    (hcauses : resolveCauses ⊆ causes)
    (hk : ∀ W, resolve s.x V = .ok W → RaisesOnly causes s (k W)) :
    RaisesOnly causes s (resolve s.x V >>= k) := by
  refine .bind (fun cause info h => hcauses ?_) hk
  rcases resolve_error h with ⟨_, _, he⟩ | ⟨_, he⟩ <;> cases he <;> decide

theorem RaisesOnly.topWord_bind {k : Word → Except Stop State}
    (hcauses : .stackUnderflow ∈ causes) (hk : ∀ v, RaisesOnly causes s (k v)) :
    RaisesOnly causes s (topWord s >>= k) :=
  .bind (fun _ _ h => by cases (topWord_eq_error.1 h).2; exact hcauses) fun v _ => hk v

theorem RaisesOnly.alu2 {f : Word → Word → Except Stop Word} {a b c : Word}
    (hcauses : resolveCauses ⊆ causes)
    (hf : ∀ B C cause info, f B C = .error (.raise cause info) → cause ∈ causes) :
    RaisesOnly causes s (Machine.alu2 f a b c s) :=
  .destination_bind (hcauses (by decide)) fun _ => .resolve_bind hcauses fun B _ =>
    .resolve_bind hcauses fun C _ => .bind (hf B C) fun _ _ => .ok rfl

theorem RaisesOnly.branch {taken : Bool} {b : Word} (hcauses : resolveCauses ⊆ causes) :
    RaisesOnly causes s (Machine.branch taken b s) := by
  cases taken with
  | true => exact .resolve_bind hcauses fun _ _ => .ok rfl
  | false => exact .ok rfl

end

theorem modWord_raises {B C : Word} {cause : TrapCause} {info : Option Word}
    (h : modWord B C = .error (.raise cause info)) : cause = .arithmeticError := by
  unfold modWord at h
  split at h <;> cases h
  rfl

/-- Every instruction raises only its causes. -/
theorem exec_raisesOnly (i : Instr) (s : State) :
    ∃ m, exec i s = settle i.operands s m ∧ RaisesOnly (trapCauses i) s m := by
  have hdest : .addressingViolation ∈ resolveCauses := by decide
  have hall : resolveCauses ⊆ resolveCauses := List.Subset.refl _
  cases i with
  | halt => exact ⟨.ok s.setHalted, rfl, .ok rfl⟩
  | noop => exact ⟨.ok (s.advance 1), rfl, .ok rfl⟩
  | set | not =>
    exact ⟨_, rfl, .destination_bind hdest fun _ => .resolve_bind hall fun _ _ => .ok rfl⟩
  | eq | gt =>
    exact ⟨_, rfl, .destination_bind hdest fun _ => .resolve_bind hall fun _ _ =>
      .resolve_bind hall fun _ _ => .ok rfl⟩
  | add | mult | and | or => exact ⟨_, rfl, .alu2 hall fun _ _ _ _ h => by cases h⟩
  | mod =>
    exact ⟨_, rfl, .alu2 (List.subset_cons_self _ _) fun _ _ _ _ h =>
      modWord_raises h ▸ List.mem_cons_self⟩
  | push | jmp | call | out => exact ⟨_, rfl, .resolve_bind hall fun _ _ => .ok rfl⟩
  | jt | jf => exact ⟨_, rfl, .resolve_bind hall fun _ _ => .branch hall⟩
  | pop =>
    have hmore : resolveCauses ⊆ .stackUnderflow :: resolveCauses := List.subset_cons_self _ _
    exact ⟨_, rfl, .destination_bind (hmore hdest) fun _ => .topWord_bind List.mem_cons_self
      fun _ => .resolve_bind hmore fun _ _ => .ok rfl⟩
  | ret => exact ⟨_, rfl, .topWord_bind List.mem_cons_self fun _ => .ok rfl⟩
  | rmem =>
    refine ⟨_, rfl, .destination_bind hdest fun _ => .resolve_bind hall fun B hB => ?_⟩
    rw [rawRead_heap (resolve_ok_lt hB), bind_ok]
    exact .resolve_bind hall fun _ _ => .ok rfl
  | wmem =>
    refine ⟨_, rfl, .resolve_bind hall fun A hA => .resolve_bind hall fun B _ => ?_⟩
    rw [rawWrite_heap (resolve_ok_lt hA), bind_ok]
    exact .ok rfl
  | inp =>
    exact ⟨_, rfl, .destination_bind List.mem_cons_self fun _ =>
      .bind (fun _ _ h => by cases (inputItem_eq_error.1 h).2) fun _ _ => .ok rfl⟩

/-- An instruction that leaves a trap record on an untrapped core has taken that trap, with a cause
of its own. -/
theorem exec_trapped {i : Instr} {s t : State} (hs : s.trap = none) (h : exec i s = .next t)
    (ht : t.trap ≠ none) :
    ∃ cause info, cause ∈ trapCauses i ∧ t = takeTrap cause info i.operands s := by
  obtain ⟨m, hm, hok, hraise⟩ := exec_raisesOnly i s
  rcases settle_eq_next (hm ▸ h) with ⟨u, hu, rfl⟩ | ⟨cause, info, he, rfl⟩ | ⟨-, rfl⟩
  · exact absurd ((hok u hu).trans hs) ht
  · exact ⟨cause, info, hraise cause info he, rfl⟩
  · exact absurd hs ht

theorem trapCauses_subset (i : Instr) : trapCauses i ⊆
    [.addressingViolation, .registerCycle, .stackUnderflow, .arithmeticError] := by
  cases i <;> simp [trapCauses, resolveCauses]

theorem arithmeticError_mem_trapCauses {i : Instr} (h : .arithmeticError ∈ trapCauses i) :
    ∃ a b c, i = .mod a b c := by
  cases i <;> simp_all [trapCauses, resolveCauses]

theorem stackUnderflow_mem_trapCauses {i : Instr} (h : .stackUnderflow ∈ trapCauses i) :
    (∃ a, i = .pop a) ∨ i = .ret := by
  cases i <;> simp_all [trapCauses, resolveCauses]

/-- Settles O37: a trap taken by an instruction is written by `takeTrap`, and the record's opcode is
the first word of the window. -/
theorem trapsArePrecise : Obligations.TrapsArePrecise := by
  intro i s t hs h ht
  obtain ⟨cause, info, -, rfl⟩ := exec_trapped hs h ht
  refine ⟨_, rfl, rfl, rfl, fun hpc => ?_, fun hpc => ?_⟩
  · rw [fetch_of_pc_lt hpc, List.head?_cons]
  · rw [fetch_of_pc_ge hpc, List.head?_nil]

/-- Settles O39: each clause is read off the table of causes. -/
theorem trapCausesPerInstruction : Obligations.TrapCausesPerInstruction := by
  intro i s t r hs h ht
  obtain ⟨cause, info, hcause, rfl⟩ := exec_trapped hs h (by simp [ht])
  obtain rfl := Option.some.inj ht
  refine ⟨by simpa using trapCauses_subset i hcause, ?_, ?_, ?_, ?_, ?_, ?_⟩
  · rintro rfl
    exact List.not_mem_nil hcause
  · rintro rfl
    exact List.not_mem_nil hcause
  · rintro rfl
    exact arithmeticError_mem_trapCauses hcause
  · rintro rfl
    exact stackUnderflow_mem_trapCauses hcause
  · rintro rfl
    exact List.mem_singleton.1 hcause
  · rintro a rfl
    exact List.mem_singleton.1 hcause

/-! ### The order of detection (R124) -/

theorem traps_of_error {i : Instr} {s : State} {m : Except Stop State} {ws : List Word}
    {cause : TrapCause} {info : Option Word} (hexec : exec i s = settle ws s m)
    (hm : m = .error (.raise cause info)) : Traps i s cause info :=
  trapsWith_of_raises hexec ⟨cause, info, hm, rfl, rfl⟩

/-- An instruction with a destination checks it before anything else. -/
theorem exec_eq_settle_destination {i : Instr} {a : Word} (h : i.dest? = some a) (s : State) :
    ∃ k, exec i s = settle i.operands s (destination a >>= k) := by
  cases i <;> cases h <;> exact ⟨_, rfl⟩

/-- The seven two-source instructions have one shape. -/
theorem exec_eq_settle_alu2 {i : Instr} {a b c : Word}
    (h : i ∈ [Instr.eq a b c, .gt a b c, .add a b c, .mult a b c, .mod a b c, .and a b c,
      .or a b c]) (s : State) : ∃ f, exec i s = settle i.operands s (alu2 f a b c s) := by
  simp only [List.mem_cons, List.not_mem_nil, or_false] at h
  rcases h with rfl | rfl | rfl | rfl | rfl | rfl | rfl
  · exact ⟨fun B C => .ok (truthWord (B == C)), rfl⟩
  · exact ⟨fun B C => .ok (truthWord (decide (B.toNat > C.toNat))), rfl⟩
  all_goals exact ⟨_, rfl⟩

/-- JT, JF and WMEM resolve their operand a before anything else. -/
theorem exec_eq_settle_resolve {i : Instr} {a b : Word}
    (h : i ∈ [Instr.jt a b, .jf a b, .wmem a b]) (s : State) :
    ∃ k, exec i s = settle i.operands s (resolve s.x a >>= k) := by
  simp only [List.mem_cons, List.not_mem_nil, or_false] at h
  rcases h with rfl | rfl | rfl <;> exact ⟨_, rfl⟩

/-- Settles O38: an instruction stops at the first access that fails, so each clause names the
accesses before it. -/
theorem trapOrderWithinOneInstruction : Obligations.TrapOrderWithinOneInstruction := by
  intro s i a b c cause info
  refine ⟨fun hi hbad => ?_, fun hi hgood => ?_, fun hi ha => ?_, fun hgood hb => ?_,
    fun hgood B hB hword => ?_⟩
  · obtain ⟨k, hexec⟩ := exec_eq_settle_destination hi s
    exact traps_of_error hexec (by rw [destination_eq_error.2 ⟨hbad, rfl⟩, bind_error])
  · obtain ⟨d, rfl⟩ := destOk_iff.1 hgood
    obtain ⟨f, hexec⟩ := exec_eq_settle_alu2 hi s
    rw [alu2, destination_regWord, bind_ok] at hexec
    refine ⟨fun hb => traps_of_error hexec ?_, fun B hB hc => traps_of_error hexec ?_⟩
    · rw [hb, bind_error]
    · rw [hB, bind_ok, hc, bind_error]
  · obtain ⟨k, hexec⟩ := exec_eq_settle_resolve hi s
    exact traps_of_error hexec (by rw [ha, bind_error])
  · obtain ⟨d, rfl⟩ := destOk_iff.1 hgood
    exact traps_of_error rfl (by rw [destination_regWord, bind_ok, hb, bind_error])
  · obtain ⟨d, rfl⟩ := destOk_iff.1 hgood
    exact traps_of_error rfl (by
      rw [destination_regWord, bind_ok, hB, bind_ok, rawRead_heap (resolve_ok_lt hB), bind_ok,
        hword, bind_error])

/-! ### When the core steps (R130, R131) -/

theorem runnable_eq_true {s : State} : s.runnable = true ↔
    s.trap = none ∧ s.halted = false ∧ (s.paused = false ∨ s.stepOnce = true) := by
  simp [State.runnable, and_assoc]

theorem runnable_eq_false {s : State} : s.runnable = false ↔
    s.trap ≠ none ∨ s.halted = true ∨ s.paused = true ∧ s.stepOnce = false := by
  rw [← Bool.not_eq_true, runnable_eq_true]
  simp only [not_and_or, not_or, Bool.not_eq_false, Bool.not_eq_true]

theorem coreCycle_of_not_runnable {s : State} (h : s.runnable = false) : coreCycle s = .next s := by
  simp [coreCycle, h]

theorem step_of_agenda_cycle {s : State} {rest : List HostMove} (h : s.agenda = .cycle :: rest) :
    step s = coreCycle { s with agenda := rest } := by
  rw [step, boundaryMove, h]

/-- Settles O35: with no move, or with the move that lets the core have its turn, the step is the
core's cycle. -/
theorem stepRunsTheDecodedInstruction : Obligations.StepRunsTheDecodedInstruction := by
  intro s rest hagenda
  have hstep : step s = coreCycle { s with agenda := rest } := by
    rcases hagenda with ⟨hnil, rfl⟩ | hcycle
    · rw [step_of_agenda_nil hnil, ← hnil]
    · exact step_of_agenda_cycle hcycle
  rw [hstep]
  refine ⟨fun i htrap hhalted hgo hd => ?_, fun e htrap hhalted hgo hd => ?_, fun hheld => ?_⟩
  · exact coreCycle_of_decode_ok (runnable_eq_true.2 ⟨htrap, hhalted, hgo⟩) hd
  · exact coreCycle_of_decode_error (runnable_eq_true.2 ⟨htrap, hhalted, hgo⟩) hd
  · exact coreCycle_of_not_runnable (runnable_eq_false.2 hheld)

/-- Settles O41: a decoded instruction completes, traps or stalls, and the stall is the case that
holds the core for input. -/
theorem coreStepCountsTrapsOrHolds : Obligations.CoreStepCountsTrapsOrHolds := by
  intro s ha
  rw [step_of_agenda_nil ha]
  refine ⟨coreCycle_of_not_runnable, ?_, fun hr hheld => ?_⟩
  · rintro ⟨hr, hnil, a, hgood, hd⟩
    obtain ⟨d, rfl⟩ := destOk_iff.1 hgood
    rw [coreCycle_of_decode_ok hr hd, exec_inp_regWord_of_inbuf_nil d hnil]
  · cases hd : decode (fetch s) with
    | error e => exact ⟨_, coreCycle_of_decode_error hr hd, .inr ⟨_, rfl⟩⟩
    | ok i =>
      obtain ⟨t, ht⟩ := exec_next i s
      refine ⟨t, (coreCycle_of_decode_ok hr hd).trans ht, ?_⟩
      rcases exec_cases ht with ⟨u, hu, rfl⟩ | ⟨cause, info, rfl⟩ | ⟨rfl, ⟨d, rfl⟩, hnil⟩
      · obtain ⟨htrap, -⟩ := runnable_eq_true.1 hr
        exact .inl ⟨hu.trap.trans htrap, congrArg (· + 1) hu.cycle, rfl⟩
      · exact .inr ⟨_, rfl⟩
      · exact absurd ⟨hr, hnil, _, destOk_iff.2 ⟨d, rfl⟩, hd⟩ hheld

/-! ### Host events (R128, R135 to R141) -/

/-- A trapped core drops every event but reset (log 4). -/
theorem hostEvent_of_trapped {e : HostEvent} {s : State} (hs : s.trap ≠ none)
    (he : ∀ image preload, e ≠ .reset image preload) : hostEvent e s = .next s := by
  rw [hostEvent, if_pos (Option.isSome_iff_ne_none.2 hs)]
  cases e with
  | reset image preload => exact absurd rfl (he image preload)
  | _ => rfl

/-- Settles O40: a trapped core is not runnable, drops every event but reset, and reset clears the
record. -/
theorem trappedCoreAcceptsOnlyReset : Obligations.TrappedCoreAcceptsOnlyReset := by
  intro s hs
  have hheld : ∀ agenda, State.runnable { s with agenda := agenda } = false := fun _ =>
    runnable_eq_false.2 (.inl hs)
  refine ⟨fun ha => ?_, fun rest ha => ?_, fun e rest ha he => ?_,
    fun image preload rest ha hlen => ?_⟩
  · rw [step_of_agenda_nil ha, coreCycle_of_not_runnable (hheld s.agenda)]
  · rw [step_of_agenda_cycle ha, coreCycle_of_not_runnable (hheld rest)]
  · rw [step_of_agenda_event ha]
    exact hostEvent_of_trapped hs he
  · rw [step_of_agenda_event ha, hostEvent_reset, resetEvent, if_pos hlen]
    exact ⟨_, rfl, rfl⟩

/-- An untrapped core accepts the event at the head of the agenda. -/
theorem step_of_event_untrapped {s : State} {e : HostEvent} {rest : List HostMove}
    (hs : s.trap = none) (ha : s.agenda = .event e :: rest) :
    step s = acceptEvent e { s with agenda := rest } := by
  rw [step_of_agenda_event ha, hostEvent, if_neg (by simp [hs])]

/-- Settles O53: each event is accepted, and set-register alone can be refused. -/
theorem hostEventsChangeWhatTheyName : Obligations.HostEventsChangeWhatTheyName := by
  intro s e rest hs ha
  rw [step_of_event_untrapped hs ha]
  refine ⟨?_, ?_, ?_, ?_, ?_⟩
  · rintro bytes rfl
    rfl
  · rintro rfl
    rfl
  · rintro rfl
    rfl
  · rintro i v rfl
    exact ⟨fun hi => dif_pos hi, fun hi => dif_neg (Nat.not_lt.2 hi)⟩
  · rintro (rfl | rfl | rfl) <;> rfl

/-- Settles O55: load-state writes every field of the snapshot, and a canonical heap is its own
canonical form. -/
theorem loadStateRestoresTheSnapshot : Obligations.LoadStateRestoresTheSnapshot := by
  intro s s0 rest hs hw ha
  rw [step_of_event_untrapped hs ha, acceptEvent, State.load, State.capture,
    Memory.canonical_of_wf hw, hs]

end Sys2Proof.Machine
